-- ==== Sys2Proof/Word.lean ====
section
/-! DEFINITION. The words and the named values of the spec's notation (spec/00_scope.md R8, R9). -/

namespace Sys2Proof

/-- A command word or a host register: 32 bits (30_encoding.md R90, 20_memory.md R64). -/
abbrev Word := BitVec 32

/-- One byte: the accumulator, a scratchpad byte, a byte operand. -/
abbrev Byte := BitVec 8

/-- `Level = {Low, High}` (R9). -/
inductive Level where
  | low
  | high
deriving DecidableEq, Repr, Inhabited

/-- `Dir = {In, Out}` (R9). -/
inductive Dir where
  | input
  | output
deriving DecidableEq, Repr, Inhabited

/-- `Unit = {C, F}` (R9), the temperature unit a unit character stands for (30_encoding.md R101). -/
inductive TempUnit where
  | celsius
  | fahrenheit
deriving DecidableEq, Repr, Inhabited

/-- One event of the trace (R9): what a micro-operation shows on the line or in time. -/
inductive Event where
  | dirIn
  | dirOut
  | drive (l : Level)
  | sample (l : Level)
  /-- `Wait(n)`: `n` requested microseconds. -/
  | wait (n : Nat)
deriving DecidableEq, Repr, Inhabited

/-- Which low bits of the LSB contribute to the fraction (R6 `FRAC_POLARITY`, 90_conflicts.md C2). -/
inductive FracPolarity where
  | unset
  | set
deriving DecidableEq, Repr, Inhabited

/-- The (port-group id, bit-mask) pair that names the line's pad (R7). No command reads it. -/
structure PinHandle where
  portGroup : Nat
  bitMask : Nat
deriving DecidableEq, Repr, Inhabited

end Sys2Proof
end

