-- ==== Sys2Proof/Config.lean ====
section
/-! DEFINITION. The parameters of the block (spec/00_scope.md R6, R7) with the values this hardware takes, and
the values the spec leaves open, as constants with no body. -/

namespace Sys2Proof.Config

/-! ### Requested durations, in microseconds (R6) -/

/-- The low phase of a bus reset. -/
def tResetLow : Nat := 480
/-- The released phase of a bus reset. -/
def tResetWait : Nat := 480
/-- The length of every bit slot. -/
def tSlot : Nat := 60
/-- The low phase of a write-1 slot. -/
def tW1Low : Nat := 1
/-- The released phase of a write-1 slot. -/
def tW1Rel : Nat := 59
/-- The low phase of a write-0 slot. -/
def tW0Low : Nat := 59
/-- The released phase of a write-0 slot. -/
def tW0Rel : Nat := 1
/-- The low phase of a read slot. -/
def tRInit : Nat := 1
/-- From the release to the sample of a read slot. -/
def tRSample : Nat := 15
/-- From the sample to the end of a read slot. -/
def tRRest : Nat := 44
/-- The conversion wait of GET_TEMP. -/
def tConv : Nat := 750

/-! ### Device command bytes, masks, characters (R6, 30_encoding.md R100, R101) -/

def skipRom : Byte := 0xCC
def convert : Byte := 0x44
def readScratchpad : Byte := 0xBE
/-- Bit 3 of the MSB: the sign indicator (90_conflicts.md C5). -/
def signMask : Byte := 0x08
/-- Bits 2:0 of the MSB: the high bits of the integer part. -/
def intHiMask : Byte := 0x07
/-- This hardware: an unset low bit contributes (90_conflicts.md C2). -/
def fracPolarity : FracPolarity := .unset
/-- `'C'`, `'c'` in ASCII. -/
def unitC : List Byte := [0x43, 0x63]
/-- `'F'`, `'f'` in ASCII. -/
def unitF : List Byte := [0x46, 0x66]
/-- The denominator of `result`. -/
def resultDen : Nat := 80

/-! ### Open parameters: no value of theirs can be proved -/

/-- `CLK_HZ - 1`, uninterpreted. Its type carries the constraints `CLK_HZ >= 1` (R6) and `CLK_HZ < 2^32`
(92_eei_decisions.md, open parameters). -/
opaque clkHzLessOne : Fin 4294967295

/-- `CLK_HZ`, the clock frequency in hertz: open, from 1 to 2^32 - 1. -/
def clkHz : Nat := 1 + clkHzLessOne.val

/-- The PinHandle: uninterpreted, bound once (R7). -/
opaque pinHandle : PinHandle

/-- `T_OVH`, in microseconds: the longest time a non-delay micro-operation takes (R6, R131); open. -/
opaque tOvh : NNReal

/-! ### Free values -/

/-- The level the environment answers to a `Read()` (20_memory.md R70): it may depend on the whole trace so far,
and `n` tells draws apart. Free (log 3). -/
opaque envLevel (trace : List Event) (n : Nat) : Level

/-- `draw(32 bits)`: what a read of a result register returns while the block is busy
(60_exceptions.md R206). Free (log 4). -/
opaque busyRead (n : Nat) : Word

end Sys2Proof.Config
end

