-- ==== Sys2Proof/Machine/Operands.lean ====
section
/-! DEFINITION. Operand forms (spec/30_encoding.md R92, R101) and the mapping of levels to bits
(spec/20_memory.md R69). -/

namespace Sys2Proof.Machine

/-- A level as a bit: High is 1, Low is 0 (R69, 00_scope.md R9). -/
def levelBit : Level → Bool
  | .low => false
  | .high => true

/-- A bit as a level: 0 is Low, 1 is High (R9). -/
def bitLevel : Bool → Level
  | false => .low
  | true => .high

/-- A direction as a bit: In is 0, Out is 1 (R9). -/
def dirBit : Dir → Bool
  | .input => false
  | .output => true

/-- `zext_8` of a sampled level (R124, R147). -/
def levelByte (l : Level) : Byte :=
  (BitVec.ofBool (levelBit l)).setWidth 8

/-- `UnitOf(v)` (30_encoding.md R101). -/
def unitOf (v : Byte) : Option TempUnit :=
  if v ∈ Config.unitC then some .celsius
  else if v ∈ Config.unitF then some .fahrenheit
  else none

/-- The bit positions of a byte in the order of its slots: least significant first, both ways
(20_memory.md R67, 30_encoding.md R99). -/
def bitOrder : List (Fin 8) := [0, 1, 2, 3, 4, 5, 6, 7]

/-- The scratchpad bytes in the order received (20_memory.md R68, 43_temperature.md R173). -/
def byteOrder : List (Fin 9) := [0, 1, 2, 3, 4, 5, 6, 7, 8]

end Sys2Proof.Machine
end

