-- ==== Sys2Proof/Syntax.lean ====
section
/-! DEFINITION. The twelve host commands (spec/30_encoding.md R93), and the micro-operations their
micro-programs are written in (spec/00_scope.md R10, spec/10_state.md R26). -/

namespace Sys2Proof

/-- A host command: one constructor per row of the opcode table. A unit operand is the character as it stands in
the word (R92), so that `CMD` can show it again. -/
inductive Instr where
  /-- SET_INPUT (R121). -/
  | setInput
  /-- SET_OUTPUT (R122). -/
  | setOutput
  /-- WRITE_LEVEL l (R123). -/
  | writeLevel (l : Level)
  /-- READ_LEVEL (R124). -/
  | readLevel
  /-- DELAY n, `n` microseconds (R127). -/
  | delay (n : BitVec 16)
  /-- OW_RESET (R141). -/
  | owReset
  /-- OW_WRITE_BIT b (R144). -/
  | owWriteBit (b : Bool)
  /-- OW_READ_BIT (R147). -/
  | owReadBit
  /-- OW_WRITE_BYTE v (R161). -/
  | owWriteByte (v : Byte)
  /-- OW_READ_BYTE (R163). -/
  | owReadByte
  /-- GET_TEMP v, `v` the unit character (R171). -/
  | getTemp (v : Byte)
  /-- DECODE v, `v` the unit character (R175). -/
  | decode (v : Byte)
deriving DecidableEq, Repr

/-- One row of the opcode map (R93): a word `w` spells the command when `w & mask == bits`. -/
structure OpRow where
  mnemonic : String
  op : Byte
  bits : Word
  mask : Word
  /-- The length of the micro-program (10_state.md R27). -/
  length : Nat
deriving DecidableEq, Repr

/-- What becomes of a sampled level. -/
inductive Sink where
  /-- `acc <- zext_8(s)` (R124, R147). -/
  | whole
  /-- `if s == High: acc[i] <- 1` (R163). -/
  | bit (i : Fin 8)
deriving DecidableEq, Repr

/-- The five micro-operations (00_scope.md R10). -/
inductive MicroOp where
  | setInput
  | setOutput
  | write (l : Level)
  | read (sink : Sink)
  | delay (n : Nat)
deriving DecidableEq, Repr

/-- One step of a micro-program: a micro-operation and the register actions tied to its step. -/
structure MicroStep where
  op : MicroOp
  /-- `acc <- 0` before the micro-operation (R163, R172). -/
  clearAcc : Bool := false
  /-- `scratch[k] <- acc` once the micro-operation is done (R172). -/
  store : Option (Fin 9) := none
deriving DecidableEq, Repr

end Sys2Proof
end

