-- ==== Sys2Proof/WellFormed.lean ====
section
/-! DEFINITION. Which commands are well formed: those whose argument the block accepts
(spec/30_encoding.md R94, R101). -/

namespace Sys2Proof

/-- The one check an operand can fail: the character of GET_TEMP and DECODE is a unit (R101). Every other operand
is legal at every value of its type (R92). -/
def Instr.wellFormed : Instr → Bool
  | .setInput => true
  | .setOutput => true
  | .writeLevel _ => true
  | .readLevel => true
  | .delay _ => true
  | .owReset => true
  | .owWriteBit _ => true
  | .owReadBit => true
  | .owWriteByte _ => true
  | .owReadByte => true
  | .getTemp v => (Machine.unitOf v).isSome
  | .decode v => (Machine.unitOf v).isSome

end Sys2Proof
end

