-- ==== Sys2Proof/Decode.lean ====
section
/-! DEFINITION. The command words (spec/30_encoding.md section 1 to 3): the decoder of R95, total on 32-bit words;
the opcode map of R93; the encoder, written from the formats of R91; and the host's view of the decoder. -/

namespace Sys2Proof

open Machine

/-! ### The decoder (R95) -/

/-- Why a word spells no command (R94). -/
inductive IllegalWord where
  /-- `rsv != 0`. -/
  | reservedBits
  /-- An unassigned opcode. -/
  | unassignedOpcode
  /-- A non-zero bit in an unused part of `arg`. -/
  | operandBits
deriving DecidableEq, Repr

/-- `Decode(w) : Ok(command) | Illegal | BadArg` (R95). A bad argument keeps the command the word spells: such a
word "is legal but has an invalid argument" (R94). -/
inductive Decoded where
  | ok (i : Instr)
  | badArg (i : Instr)
  | illegal (why : IllegalWord)
deriving DecidableEq, Repr

/-- `op = w[31:24]` (R90). -/
def opField (w : Word) : Byte := w.extractLsb' 24 8

/-- `rsv = w[23:16]` (R90). -/
def rsvField (w : Word) : Byte := w.extractLsb' 16 8

/-- `arg = w[15:0]` (R90). -/
def argField (w : Word) : BitVec 16 := w.extractLsb' 0 16

/-- Format N (R91). -/
def formatN (arg : BitVec 16) (i : Instr) : Decoded :=
  if arg = 0 then .ok i else .illegal .operandBits

/-- Format B (R91): the operand is bit 0. -/
def formatB (arg : BitVec 16) (f : Bool → Instr) : Decoded :=
  if arg.extractLsb' 1 15 = 0 then .ok (f (arg.getLsbD 0)) else .illegal .operandBits

/-- Format Y (R91): the operand is bits 7:0. -/
def formatY (arg : BitVec 16) (f : Byte → Decoded) : Decoded :=
  if arg.extractLsb' 8 8 = 0 then f (arg.extractLsb' 0 8) else .illegal .operandBits

/-- Ok or BadArg, by the argument's check (R95). -/
def checkArg (i : Instr) : Decoded :=
  if i.wellFormed then .ok i else .badArg i

/-- The case on the opcode (R95). -/
def decodeOp (op : Byte) (arg : BitVec 16) : Decoded :=
  if op = 0x01 then formatN arg .setInput
  else if op = 0x02 then formatN arg .setOutput
  else if op = 0x03 then formatB arg fun b => .writeLevel (bitLevel b)
  else if op = 0x04 then formatN arg .readLevel
  else if op = 0x05 then .ok (.delay arg)
  else if op = 0x10 then formatN arg .owReset
  else if op = 0x11 then formatB arg .owWriteBit
  else if op = 0x12 then formatN arg .owReadBit
  else if op = 0x13 then formatY arg fun v => .ok (.owWriteByte v)
  else if op = 0x14 then formatN arg .owReadByte
  else if op = 0x20 then formatY arg fun v => checkArg (.getTemp v)
  else if op = 0x21 then formatY arg fun v => checkArg (.decode v)
  else .illegal .unassignedOpcode

/-- `Decode(w)` (R95). -/
def decodeWord (w : Word) : Decoded :=
  if rsvField w ≠ 0 then .illegal .reservedBits else decodeOp (opField w) (argField w)

/-- The command a word spells, its argument checked or not (R93, R94). -/
def spelled (w : Word) : Option Instr :=
  match decodeWord w with
  | .ok i => some i
  | .badArg i => some i
  | .illegal _ => none

/-! ### The opcode map (R93) -/

/-- The row of the opcode map a command is encoded by (R93, and 10_state.md R27 for the lengths). -/
def opRow : Instr → OpRow
  | .setInput => ⟨"SET_INPUT", 0x01, 0x01000000, 0xFFFFFFFF, 1⟩
  | .setOutput => ⟨"SET_OUTPUT", 0x02, 0x02000000, 0xFFFFFFFF, 1⟩
  | .writeLevel _ => ⟨"WRITE_LEVEL", 0x03, 0x03000000, 0xFFFFFFFE, 1⟩
  | .readLevel => ⟨"READ_LEVEL", 0x04, 0x04000000, 0xFFFFFFFF, 1⟩
  | .delay _ => ⟨"DELAY", 0x05, 0x05000000, 0xFFFF0000, 1⟩
  | .owReset => ⟨"OW_RESET", 0x10, 0x10000000, 0xFFFFFFFF, 5⟩
  | .owWriteBit _ => ⟨"OW_WRITE_BIT", 0x11, 0x11000000, 0xFFFFFFFE, 5⟩
  | .owReadBit => ⟨"OW_READ_BIT", 0x12, 0x12000000, 0xFFFFFFFF, 7⟩
  | .owWriteByte _ => ⟨"OW_WRITE_BYTE", 0x13, 0x13000000, 0xFFFFFF00, 40⟩
  | .owReadByte => ⟨"OW_READ_BYTE", 0x14, 0x14000000, 0xFFFFFFFF, 56⟩
  | .getTemp _ => ⟨"GET_TEMP", 0x20, 0x20000000, 0xFFFFFF00, 675⟩
  | .decode _ => ⟨"DECODE", 0x21, 0x21000000, 0xFFFFFF00, 0⟩

/-- A word spells the command of a row (R93). -/
def OpRow.matches (r : OpRow) (w : Word) : Bool := w &&& r.mask == r.bits

/-- The twelve rows (R93), in the table's order. -/
def opcodeTable : List OpRow :=
  [.setInput, .setOutput, .writeLevel .low, .readLevel, .delay 0, .owReset, .owWriteBit false, .owReadBit,
    .owWriteByte 0, .owReadByte, .getTemp 0, .decode 0].map opRow

/-! ### The encoder (R91, R92) -/

/-- The operand of a command, unused bits 0 (R91, R92). -/
def argOf : Instr → BitVec 16
  | .setInput => 0
  | .setOutput => 0
  | .writeLevel l => (BitVec.ofBool (levelBit l)).setWidth 16
  | .readLevel => 0
  | .delay n => n
  | .owReset => 0
  | .owWriteBit b => (BitVec.ofBool b).setWidth 16
  | .owReadBit => 0
  | .owWriteByte v => v.setWidth 16
  | .owReadByte => 0
  | .getTemp v => v.setWidth 16
  | .decode v => v.setWidth 16

/-- `op ++ 8'h00 ++ arg` (R90, 10_state.md R36). -/
def commandWord (op : Byte) (arg : BitVec 16) : Word := op ++ (0 : Byte) ++ arg

/-- The command word of an instruction (R90, R91, R104). -/
def encode (i : Instr) : Word := commandWord (opRow i).op (argOf i)

/-! ### The host's view -/

/-- The instruction the decoder reads from a word whose bits are `w`: the command it spells (log 6). -/
def decodeTableWord (nbits w : Nat) : Option Instr :=
  spelled (BitVec.ofNat 32 (w % 2 ^ nbits))

end Sys2Proof
end

