-- ==== Sys2Proof/Machine/State.lean ====
section
/-! DEFINITION. The state of one OWE instance (spec/10_state.md R20), its reset value (R44), and the reasons a
step of the model can stop. -/

namespace Sys2Proof.Machine

/-- The scratchpad buffer (R25, 20_memory.md R60): (index, byte) pairs, indices rising, no entry equal to what an
unlisted index reads as. -/
abbrev Memory := List Host.Cell

/-- One action of the host (00_scope.md R12, 20_memory.md R62, R63; log 1, 2). -/
inductive HostAct where
  /-- An assembler line `<MNEMONIC> [operand]` (30_encoding.md R104): the word is written to CMD and the host polls,
  so that its next action comes after the command. -/
  | command (w : Word)
  /-- A bare `HostWrite(idx, w)`: one transaction. -/
  | write (idx : BitVec 5) (w : Word)
  /-- A `HostRead(idx)`. -/
  | read (idx : BitVec 5)
  /-- The host lets the sequencer take one step. -/
  | tick
  /-- A clock edge with `rst = 1` (70_reset_and_hazards.md R230). -/
  | rst
deriving DecidableEq, Repr

/-- The complete state of one OWE instance (R20), and after it the model's own fields for the two agents outside
the block: the host and the environment. -/
structure State where
  /-- Byte accumulator, last read value (R21). -/
  acc : Byte
  /-- Celsius accumulator, units of 1/16 °C (R22). -/
  celsius : BitVec 11
  /-- Returned temperature, numerator over 80 (R23). -/
  result : BitVec 16
  /-- ScratchpadImage (R25). -/
  scratch : Memory
  /-- Micro-sequence counter (R26, R27). -/
  upc : BitVec 10
  /-- Opcode of the last accepted command (R30). -/
  cmdOp : Byte
  /-- Operand of the last accepted command (R30). -/
  cmdArg : BitVec 16
  /-- A command is in progress (R28). -/
  busy : Bool
  /-- The last accepted command has completed and no command write has arrived since (R28). -/
  done : Bool
  /-- InvalidArgument recorded (R29). -/
  errArg : Bool
  /-- IllegalCommand recorded (R29). -/
  errCmd : Bool
  /-- BusyWrite recorded (R29). -/
  errBusy : Bool
  /-- Pin direction (R38). -/
  dir : Dir
  /-- Output latch (R39). -/
  out : Level
  /-- Clock cycles the current Delay still has to wait (R40). -/
  dlyCnt : BitVec 32
  /-- The events so far, NEWEST first: the ghost `trace` (R46), which `State.trace` shows in the order the events
  happened. -/
  events : List Event
  /-- Model's own: what the host is going to do, next first (log 2). -/
  host : List HostAct
  /-- Model's own: what host reads have returned, oldest first (log 4). -/
  hostLog : List (BitVec 5 × Word)
  /-- Model's own: the environment's next answers, next first; past their end its answers are free (log 3). -/
  lineIn : List Level
  /-- Model's own: how many free levels have been drawn (log 3). -/
  draws : Nat
  /-- Model's own: how many free words have been drawn (log 4). -/
  hostDraws : Nat
deriving DecidableEq, Repr

/-- The state after reset (R44, 70_reset_and_hazards.md R230); the model's own fields are empty (logs 2, 3, 4). -/
def State.reset : State where
  acc := 0
  celsius := 0
  result := 0
  scratch := []
  upc := 0
  cmdOp := 0
  cmdArg := 0
  busy := false
  done := false
  errArg := false
  errCmd := false
  errBusy := false
  dir := .input
  out := .low
  dlyCnt := 0
  events := []
  host := []
  hostLog := []
  lineIn := []
  draws := 0
  hostDraws := 0

/-- Why a step can stop with a fault. The spec has no faults (60_exceptions.md R219): both are raised by the sequencer
alone, in states no run reaches (log 8), and both are safe. -/
inductive Fault where
  /-- Busy, but `cmd_op`, `cmd_arg` hold no command the block accepts. Safe. -/
  | noCommand
  /-- Busy, but `upc` is past the completion step. Safe. -/
  | upcPastEnd
deriving DecidableEq, Repr

/-- Why an instruction can be refused. No instruction is: the spec's own refusals (60_exceptions.md R200) are next
states. -/
inductive Refusal where
  /-- An instruction without a meaning, raised by `exec` only. Safe. -/
  | notModelled (mnemonic : String)
deriving DecidableEq, Repr

end Sys2Proof.Machine
end

