-- ==== Sys2Proof/Machine/Ops.lean ====
section
/-! DEFINITION. The named operations over the state: the scratchpad buffer, the five micro-operations' effects on
line, latch and delay counter, raising a refusal and clearing one, accepting a command, reset. -/

namespace Sys2Proof.Machine

/-! ### The scratchpad buffer (10_state.md R25, 20_memory.md R60) -/

/-- What an unlisted index reads as: the reset contents (R44). -/
def Memory.unlisted : Byte := 0

/-- The canonical form (log 14): indices strictly rising, all of them 0 to 8 (R60), no entry equal to what an unlisted
index reads as. -/
abbrev Memory.wf (m : Memory) : Prop :=
  m.Pairwise (fun x y => x.1 < y.1) ∧ ∀ c ∈ m, c.1 < 9 ∧ c.2 ≠ Memory.unlisted

/-- The byte at an index. -/
def Memory.readByte : Memory → Nat → Byte
  | [], _ => Memory.unlisted
  | (b, x) :: m, a => if a = b then x else Memory.readByte m a

/-- Store a byte, keeping the canonical form. -/
def Memory.writeByte : Memory → Nat → Byte → Memory
  | [], a, v => if v = Memory.unlisted then [] else [(a, v)]
  | (b, x) :: m, a, v =>
    if a < b then
      if v = Memory.unlisted then (b, x) :: m else (a, v) :: (b, x) :: m
    else if a = b then
      if v = Memory.unlisted then m else (a, v) :: m
    else (b, x) :: Memory.writeByte m a v

/-- `MemRead(k, 1)` (00_scope.md R10). -/
def memRead (k : Fin 9) (s : State) : Byte := Memory.readByte s.scratch k.val

/-- `MemWrite(k, 1, v)` (00_scope.md R10). -/
def memWrite (k : Fin 9) (v : Byte) (s : State) : State :=
  { s with scratch := Memory.writeByte s.scratch k.val v }

/-! ### The trace (10_state.md R46) -/

/-- `trace`: the events so far in the order they happened (R46). -/
def State.trace (s : State) : List Event := s.events.reverse

/-- `trace <- trace ++ [e]` (00_scope.md R10). -/
def emit (e : Event) (s : State) : State := { s with events := e :: s.events }

/-! ### GPIO Line (40_line_and_delay.md R121 to R125) -/

/-- `SetInput()` (R121). -/
def setInputOp (s : State) : State := emit .dirIn { s with dir := .input }

/-- `SetOutput()` (R122): the latch is unchanged. -/
def setOutputOp (s : State) : State := emit .dirOut { s with dir := .output }

/-- `Write(l)` (R123): exactly one update of the latch, whatever the direction. -/
def writeOp (l : Level) (s : State) : State := emit (.drive l) { s with out := l }

/-- `oracle()` (R124, 20_memory.md R70): the environment's next answer, whatever the direction; past the end of the
script a free value (log 3). -/
def oracle (s : State) : Level × State :=
  match s.lineIn with
  | l :: ls => (l, { s with lineIn := ls })
  | [] => (Config.envLevel s.trace s.draws, { s with draws := s.draws + 1 })

/-- What the caller does with a sampled level (R124, 42_onewire_byte.md R163). -/
def latchSample (sink : Sink) (l : Level) (s : State) : State :=
  match sink with
  | .whole => { s with acc := levelByte l }
  | .bit i => { s with acc := if l = .high then s.acc ||| (1#8 <<< i.val) else s.acc }

/-- `Read()` (R124), and in the same step what the command does with the level. -/
def readOp (sink : Sink) (s : State) : State :=
  latchSample sink (oracle s).1 (emit (.sample (oracle s).1) (oracle s).2)

/-! ### Busy-Wait Delay Service (40_line_and_delay.md R126 to R128) -/

/-- `ceil_div(a, b)`: the least `q` with `q * b >= a` (00_scope.md R8). -/
def ceilDiv (a b : Nat) : Nat := a / b + if a % b = 0 then 0 else 1

/-- `cycles(n)` at a given clock frequency (R126). -/
def cyclesAt (hz n : Nat) : Nat := ceilDiv (n * hz) 1000000

/-- `cycles(n)` (R126) at the clock of this instance. -/
def cycles (n : Nat) : Nat := cyclesAt Config.clkHz n

/-- `cycles(n)` as the delay counter holds it: 32 bits, which it always fits (R126). -/
def delayCount (n : Nat) : BitVec 32 := BitVec.ofNat 32 (cycles n)

/-- `Delay(n)`, big step (R127): the whole wait, after which the counter is 0 again. -/
def delayOp (n : Nat) (s : State) : State := emit (.wait n) { s with dlyCnt := 0 }

/-- `Delay(n)`, the step at which the sequencer reaches it (R128). -/
def loadDelay (n : Nat) (s : State) : State :=
  emit (.wait n) { s with dlyCnt := delayCount n }

/-- One clock cycle of a `Delay` in progress (R128). -/
def countDelay (s : State) : State := { s with dlyCnt := s.dlyCnt - 1 }

/-! ### Refusals: the block's exceptions (60_exceptions.md R200 to R205) -/

/-- The three causes (R200). -/
inductive Cause where
  | invalidArgument
  | illegalCommand
  | busyWrite
deriving DecidableEq, Repr

/-- The code of a cause: the index of its flag in STATUS (R200). -/
def Cause.code : Cause → Nat
  | .invalidArgument => 2
  | .illegalCommand => 3
  | .busyWrite => 4

/-- `raise` (R201 to R204): the cause's sticky flag, and nothing else. -/
def raise (c : Cause) (s : State) : State :=
  match c with
  | .invalidArgument => { s with errArg := true }
  | .illegalCommand => { s with errCmd := true }
  | .busyWrite => { s with errBusy := true }

/-- The way out of a refusal (R205): a STATUS write clears the flags whose bits are 1 (10_state.md R31,
20_memory.md R63). -/
def clearFlags (w : Word) (s : State) : State :=
  { s with
    errArg := s.errArg && !w.getLsbD 2
    errCmd := s.errCmd && !w.getLsbD 3
    errBusy := s.errBusy && !w.getLsbD 4 }

/-- A write to CMD, from the host's side (20_memory.md R63, 30_encoding.md R96): refused while busy; else `done` is
cleared and the rest follows. -/
def cmdWrite (f : State → State) (s : State) : State :=
  if s.busy then raise .busyWrite s else f { s with done := false }

/-- Accepting a command (30_encoding.md R96). -/
def accept (w : Word) (s : State) : State :=
  { s with cmdOp := opField w, cmdArg := argField w, upc := 0, busy := true }

/-! ### Reset (70_reset_and_hazards.md R230, R232) -/

/-- An edge at which `rst = 1`: every piece of the block's state takes its reset value; the host and the environment,
which are outside the block, go on (log 11). -/
def resetEdge (s : State) : State :=
  { State.reset with
    host := s.host, hostLog := s.hostLog, lineIn := s.lineIn, draws := s.draws, hostDraws := s.hostDraws }

/-! ### The pins (10_state.md R41) -/

/-- `ow_oe`: 1 while the pad drives the line. -/
def owOe (s : State) : Bool := dirBit s.dir

/-- `ow_out`: the level driven while `ow_oe = 1`. -/
def owOut (s : State) : Level := s.out

/-- The physical line (20_memory.md R71), for those who constrain the environment; `none` is a contended line, which
has no defined level (log 13). -/
def physicalLine (s : State) (devLow : Bool) : Option Level :=
  if owOe s then
    match owOut s with
    | .low => some .low
    | .high => if devLow then none else some .high
  else some (if devLow then .low else .high)

end Sys2Proof.Machine
end

