-- ==== Sys2Proof/Machine/Flags.lean ====
section
/-! DEFINITION. The flags as the host sees them: the STATUS register (spec/10_state.md R28, R29, R31). There are no
arithmetic condition codes (R29). -/

namespace Sys2Proof.Machine

/-- STATUS as read (R31): BUSY, DONE, ERR_ARG, ERR_CMD, ERR_BUSY in bits 0 to 4, the rest 0. -/
def statusWord (s : State) : Word :=
  (0 : BitVec 27) ++ BitVec.ofBool s.errBusy ++ BitVec.ofBool s.errCmd ++ BitVec.ofBool s.errArg ++
    BitVec.ofBool s.done ++ BitVec.ofBool s.busy

/-- The flag a cause sets (60_exceptions.md R200). -/
def causeFlag (c : Cause) (s : State) : Bool :=
  match c with
  | .invalidArgument => s.errArg
  | .illegalCommand => s.errCmd
  | .busyWrite => s.errBusy

/-- A command's end (R28): the flags the completion step writes. -/
def finishFlags (s : State) : State := { s with busy := false, done := true }

end Sys2Proof.Machine
end

