-- ==== Sys2Proof/Machine/Scratchpad.lean ====
section
/-! DEFINITION. The temperature scratchpad decoder (spec/43_temperature.md R176 to R180). -/

namespace Sys2Proof.Machine

/-- The four fraction bits of the LSB (R176, 30_encoding.md R102): bit `i` counts when it is unset, or, under the
other polarity, when it is set (90_conflicts.md C2). -/
def fracField (p : FracPolarity) (lsb : Byte) : BitVec 4 :=
  match p with
  | .unset => ~~~(lsb.extractLsb' 0 4)
  | .set => lsb.extractLsb' 0 4

/-- `int7 <- (lsb >> 4) + ((msb & 0x07) << 4)`, 7 bits (R176). -/
def intField (lsb msb : Byte) : BitVec 7 :=
  ((lsb >>> 4) + ((msb &&& Config.intHiMask) <<< 4)).setWidth 7

/-- `celsius <- (int7 << 4) | frac4`, 11 bits (R176). -/
def celsiusField (p : FracPolarity) (lsb msb : Byte) : BitVec 11 :=
  ((intField lsb msb).setWidth 11 <<< 4) ||| (fracField p lsb).setWidth 11

/-- The sign indicator (R176, R177). -/
def signSet (msb : Byte) : Bool := msb &&& Config.signMask != 0

/-- The numerator over 80 of a reading in the unit asked for (R176, R178, R179). -/
def resultField (u : TempUnit) (c : BitVec 11) : BitVec 16 :=
  match u with
  | .celsius => 5 * c.setWidth 16
  | .fahrenheit => 9 * c.setWidth 16 + 2560

/-- `DecodeStep(u)`, one indivisible step (R176). -/
def decodeStep (u : TempUnit) (s : State) : State :=
  let lsb := memRead 0 s
  let msb := memRead 1 s
  if signSet msb then { s with celsius := 0, result := 0 }
  else
    { s with
      celsius := celsiusField Config.fracPolarity lsb msb
      result := resultField u (celsiusField Config.fracPolarity lsb msb) }

end Sys2Proof.Machine
end

