-- ==== Sys2Proof/Machine/Sequencer.lean ====
section
/-! DEFINITION. How a micro-program runs (spec/10_state.md R26 to R28): one micro-step, a whole micro-program, the
completion step, and a whole command (30_encoding.md R96, then R26). -/

namespace Sys2Proof.Machine

/-- `acc <- 0`, where the step says so (42_onewire_byte.md R163). -/
def beforeOp (m : MicroStep) (s : State) : State :=
  if m.clearAcc then { s with acc := 0 } else s

/-- `scratch[k] <- acc`, where the step says so (43_temperature.md R172, R173). -/
def afterOp (m : MicroStep) (s : State) : State :=
  match m.store with
  | none => s
  | some k => memWrite k s.acc s

/-- `upc <- upc + 1` (10_state.md R27). -/
def advance (s : State) : State := { s with upc := s.upc + 1 }

/-- The end of a micro-step. -/
def finishOp (m : MicroStep) (s : State) : State := advance (afterOp m s)

/-- A micro-operation, a `Delay` as one big step (40_line_and_delay.md R121 to R127). -/
def performOp (op : MicroOp) (s : State) : State :=
  match op with
  | .setInput => setInputOp s
  | .setOutput => setOutputOp s
  | .write l => writeOp l s
  | .read sink => readOp sink s
  | .delay n => delayOp n s

/-- One step of a micro-program, done whole. -/
def runStep (s : State) (m : MicroStep) : State := finishOp m (performOp m.op (beforeOp m s))

/-- The steps of a micro-program in order, whatever the line returns (10_state.md R27, 43_temperature.md R183). -/
def runSteps (prog : List MicroStep) (s : State) : State := prog.foldl runStep s

/-- The completion step (10_state.md R26): the command's final register writes, then `busy <- 0`, `done <- 1`. -/
def complete (final : Option TempUnit) (s : State) : State :=
  match final with
  | none => finishFlags s
  | some u => finishFlags (decodeStep u s)

/-- The whole of a command from the host's write of its word to its completion step (30_encoding.md R96, R104;
10_state.md R26; log 1). While busy the write is refused (60_exceptions.md R203). -/
def runCommand (i : Instr) (prog : List MicroStep) (final : Option TempUnit) (s : State) :
    Host.Outcome State Fault Refusal :=
  .next (cmdWrite (fun t => complete final (runSteps prog (accept (encode i) t))) s)

/-- A command whose unit character is no unit: InvalidArgument, before any line activity (43_temperature.md R182,
60_exceptions.md R201). -/
def refuseArgument (s : State) : Host.Outcome State Fault Refusal :=
  .next (cmdWrite (raise .invalidArgument) s)

/-- A micro-program step without register actions. -/
def plain (op : MicroOp) : MicroStep := { op := op }

end Sys2Proof.Machine
end

