-- ==== Sys2Proof/Machine/Line.lean ====
section
/-! DEFINITION. Layer 0 (spec/40_line_and_delay.md): the five commands whose micro-program is the one
micro-operation of the same name (R120). -/

namespace Sys2Proof.Machine

def setInputProgram : List MicroStep := [plain .setInput]

def setOutputProgram : List MicroStep := [plain .setOutput]

def writeLevelProgram (l : Level) : List MicroStep := [plain (.write l)]

/-- The command does `acc <- zext_8(l)` in the step of the `Read()` (R124). -/
def readLevelProgram : List MicroStep := [plain (.read .whole)]

def delayProgram (n : BitVec 16) : List MicroStep := [plain (.delay n.toNat)]

/-- SET_INPUT (R121). -/
def execSetInput (s : State) : Host.Outcome State Fault Refusal :=
  runCommand .setInput setInputProgram none s

/-- SET_OUTPUT (R122). -/
def execSetOutput (s : State) : Host.Outcome State Fault Refusal :=
  runCommand .setOutput setOutputProgram none s

/-- WRITE_LEVEL (R123). -/
def execWriteLevel (l : Level) (s : State) : Host.Outcome State Fault Refusal :=
  runCommand (.writeLevel l) (writeLevelProgram l) none s

/-- READ_LEVEL (R124). -/
def execReadLevel (s : State) : Host.Outcome State Fault Refusal :=
  runCommand .readLevel readLevelProgram none s

/-- DELAY (R127). -/
def execDelay (n : BitVec 16) (s : State) : Host.Outcome State Fault Refusal :=
  runCommand (.delay n) (delayProgram n) none s

end Sys2Proof.Machine
end

