-- ==== Sys2Proof/Machine/OneWireBit.lean ====
section
/-! DEFINITION. Layer 1, reset/presence and the bit slots (spec/41_onewire_bit.md). -/

namespace Sys2Proof.Machine

/-- OW_RESET's micro-program (R141): no `Read()`, so presence is never looked at (R142). -/
def owResetProgram : List MicroStep :=
  [plain .setOutput, plain (.write .low), plain (.delay Config.tResetLow), plain .setInput,
    plain (.delay Config.tResetWait)]

/-- The write slot `WSLOT(b)` (R143). -/
def writeSlot (b : Bool) : List MicroStep :=
  [plain .setOutput, plain (.write .low), plain (.delay (if b then Config.tW1Low else Config.tW0Low)),
    plain .setInput, plain (.delay (if b then Config.tW1Rel else Config.tW0Rel))]

/-- The read slot `RSLOT` (R146), with what is done with its sample, and the register actions that a byte read ties
to its first and last step (43_temperature.md R172). -/
def readSlot (sink : Sink) (clearFirst : Bool) (storeLast : Option (Fin 9)) : List MicroStep :=
  [{ op := .setOutput, clearAcc := clearFirst }, plain (.write .low), plain (.delay Config.tRInit),
    plain .setInput, plain (.delay Config.tRSample), plain (.read sink),
    { op := .delay Config.tRRest, store := storeLast }]

/-- OW_READ_BIT's micro-program (R147). -/
def owReadBitProgram : List MicroStep := readSlot .whole false none

/-- OW_RESET (R141). -/
def execOwReset (s : State) : Host.Outcome State Fault Refusal :=
  runCommand .owReset owResetProgram none s

/-- OW_WRITE_BIT (R144). -/
def execOwWriteBit (b : Bool) (s : State) : Host.Outcome State Fault Refusal :=
  runCommand (.owWriteBit b) (writeSlot b) none s

/-- OW_READ_BIT (R147). -/
def execOwReadBit (s : State) : Host.Outcome State Fault Refusal :=
  runCommand .owReadBit owReadBitProgram none s

end Sys2Proof.Machine
end

