-- ==== Sys2Proof/Machine/OneWireByte.lean ====
section
/-! DEFINITION. Layer 1, the byte transactions (spec/42_onewire_byte.md): eight slots, bit 0 first, with nothing
before, between or after them (R160). -/

namespace Sys2Proof.Machine

/-- OW_WRITE_BYTE's micro-program (R161). -/
def writeByteProgram (v : Byte) : List MicroStep :=
  bitOrder.flatMap fun i => writeSlot (v.getLsbD i.val)

/-- The reading of one byte (R163), stored at `scratch[k]` when its last step ends where a `k` is given
(43_temperature.md R171, R172). -/
def readByteProgram (store : Option (Fin 9)) : List MicroStep :=
  bitOrder.flatMap fun i => readSlot (.bit i) (i == 0) (if i = 7 then store else none)

/-- OW_WRITE_BYTE (R161). -/
def execOwWriteByte (v : Byte) (s : State) : Host.Outcome State Fault Refusal :=
  runCommand (.owWriteByte v) (writeByteProgram v) none s

/-- OW_READ_BYTE (R163). -/
def execOwReadByte (s : State) : Host.Outcome State Fault Refusal :=
  runCommand .owReadByte (readByteProgram none) none s

end Sys2Proof.Machine
end

