-- ==== Sys2Proof/Machine/Temperature.lean ====
section
/-! DEFINITION. Layer 2, the temperature read sequence and the decoder's command (spec/43_temperature.md). -/

namespace Sys2Proof.Machine

/-- GET_TEMP's micro-program, document steps 1 to 6 (R171). -/
def getTempProgram : List MicroStep :=
  owResetProgram ++ writeByteProgram Config.skipRom ++ writeByteProgram Config.convert ++
    [plain (.delay Config.tConv)] ++
    owResetProgram ++ writeByteProgram Config.skipRom ++ writeByteProgram Config.readScratchpad ++
    byteOrder.flatMap fun k => readByteProgram (some k)

/-- GET_TEMP (R171): the unit is checked when the word is written (R182). -/
def execGetTemp (v : Byte) (s : State) : Host.Outcome State Fault Refusal :=
  match unitOf v with
  | some u => runCommand (.getTemp v) getTempProgram (some u) s
  | none => refuseArgument s

/-- DECODE (R175): an empty micro-program, then the decode. -/
def execDecode (v : Byte) (s : State) : Host.Outcome State Fault Refusal :=
  match unitOf v with
  | some u => runCommand (.decode v) [] (some u) s
  | none => refuseArgument s

end Sys2Proof.Machine
end

