-- ==== Sys2Proof/Machine/Dispatch.lean ====
section
/-! DEFINITION. One arm per command. -/

namespace Sys2Proof.Machine

/-- The meaning of a command (spec/00_scope.md R5). -/
def exec (i : Instr) (s : State) : Host.Outcome State Fault Refusal :=
  match i with
  -- layer 0
  | .setInput => Sys2Proof.Machine.execSetInput s
  | .setOutput => Sys2Proof.Machine.execSetOutput s
  | .writeLevel l => Sys2Proof.Machine.execWriteLevel l s
  | .readLevel => Sys2Proof.Machine.execReadLevel s
  | .delay n => Sys2Proof.Machine.execDelay n s
  -- layer 1
  | .owReset => Sys2Proof.Machine.execOwReset s
  | .owWriteBit b => Sys2Proof.Machine.execOwWriteBit b s
  | .owReadBit => Sys2Proof.Machine.execOwReadBit s
  | .owWriteByte v => Sys2Proof.Machine.execOwWriteByte v s
  | .owReadByte => Sys2Proof.Machine.execOwReadByte s
  -- layer 2
  | .getTemp v => Sys2Proof.Machine.execGetTemp v s
  | .decode v => Sys2Proof.Machine.execDecode v s

end Sys2Proof.Machine
end

