-- ==== Sys2Proof/Machine/Micro.lean ====
section
/-! DEFINITION. The sequencer step by step (spec/10_state.md R26, R27; spec/40_line_and_delay.md R128): the
micro-program and the completion of each command, one sequencer step, one clock step. -/

namespace Sys2Proof.Machine

/-- The micro-program a command selects (10_state.md R26). -/
def microProgram : Instr → List MicroStep
  | .setInput => setInputProgram
  | .setOutput => setOutputProgram
  | .writeLevel l => writeLevelProgram l
  | .readLevel => readLevelProgram
  | .delay n => delayProgram n
  | .owReset => owResetProgram
  | .owWriteBit b => writeSlot b
  | .owReadBit => owReadBitProgram
  | .owWriteByte v => writeByteProgram v
  | .owReadByte => readByteProgram none
  | .getTemp _ => getTempProgram
  | .decode _ => []

/-- What the completion step decodes, if anything (10_state.md R26, 43_temperature.md R171, R175). -/
def finalDecode : Instr → Option TempUnit
  | .setInput => none
  | .setOutput => none
  | .writeLevel _ => none
  | .readLevel => none
  | .delay _ => none
  | .owReset => none
  | .owWriteBit _ => none
  | .owReadBit => none
  | .owWriteByte _ => none
  | .owReadByte => none
  | .getTemp v => unitOf v
  | .decode v => unitOf v

/-- CMD as read (10_state.md R36): the last accepted command word. -/
def cmdWord (s : State) : Word := commandWord s.cmdOp s.cmdArg

/-- The clock cycle in which a `Delay` in progress counts (40_line_and_delay.md R128): `upc` is held while the count
is above zero and moves on when it reaches zero (10_state.md R27; log 5). -/
def delayCycle (m : MicroStep) (s : State) : State :=
  if (countDelay s).dlyCnt = 0 then finishOp m (countDelay s) else countDelay s

/-- The step at which the sequencer reaches a `Delay(n)` (R128): the count is loaded, and the step ends at once if it
is zero. -/
def delayStart (m : MicroStep) (n : Nat) (s : State) : State :=
  if (loadDelay n (beforeOp m s)).dlyCnt = 0 then finishOp m (loadDelay n (beforeOp m s))
  else loadDelay n (beforeOp m s)

/-- One sequencer step at a micro-step of the program (10_state.md R27). -/
def microStep (m : MicroStep) (s : State) : State :=
  match m.op with
  | .delay n => if s.dlyCnt = 0 then delayStart m n s else delayCycle m s
  | _ => runStep s m

/-- One sequencer step of a given command: the micro-operation at `upc`, or past the last one the completion step
(10_state.md R26). -/
def commandStep (i : Instr) (s : State) : Host.Outcome State Fault Refusal :=
  match (microProgram i)[s.upc.toNat]? with
  | some m => .next (microStep m s)
  | none =>
    if s.upc.toNat = (microProgram i).length then .next (complete (finalDecode i) s) else .fault .upcPastEnd

/-- One sequencer step while `busy = 1`: `cmd_op` and `cmd_arg` select the micro-program (10_state.md R26, R30). -/
def seqStep (s : State) : Host.Outcome State Fault Refusal :=
  match decodeWord (cmdWord s) with
  | .ok i => commandStep i s
  | _ => .fault .noCommand

/-- What the block does by itself in one step: the sequencer's step while busy, nothing while idle (00_scope.md R12;
60_exceptions.md R213). -/
def clockStep (s : State) : Host.Outcome State Fault Refusal :=
  if s.busy then seqStep s else .next s

end Sys2Proof.Machine
end

