-- ==== Sys2Proof/Machine/HostPort.lean ====
section
/-! DEFINITION. The host port: the register map (spec/10_state.md R31 to R37), HostRead and HostWrite
(spec/20_memory.md R62, R63), and what a bare write to CMD does (spec/30_encoding.md R96). -/

namespace Sys2Proof.Machine

/-- The registers behind the 32 indices (10_state.md R37). -/
inductive HostReg where
  | cmd
  | status
  | data
  | result
  | celsius
  | scratch (k : Fin 9)
  | reserved
deriving DecidableEq, Repr

/-- The index map (10_state.md R37). -/
def hostReg (idx : BitVec 5) : HostReg :=
  if idx = 0x00 then .cmd
  else if idx = 0x01 then .status
  else if idx = 0x02 then .data
  else if idx = 0x03 then .result
  else if idx = 0x04 then .celsius
  else if h : 16 ≤ idx.toNat ∧ idx.toNat < 25 then .scratch ⟨idx.toNat - 16, by omega⟩
  else .reserved

/-- Whether a read of a register while busy yields no information (60_exceptions.md R206). -/
def isResultReg : HostReg → Bool
  | .cmd => false
  | .status => false
  | .data => true
  | .result => true
  | .celsius => true
  | .scratch _ => true
  | .reserved => false

/-- The value of a register as its rule gives it (10_state.md R31 to R36). -/
def regValue (r : HostReg) (s : State) : Word :=
  match r with
  | .cmd => cmdWord s
  | .status => statusWord s
  | .data => s.acc.setWidth 32
  | .result => s.result.setWidth 32
  | .celsius => s.celsius.setWidth 32
  | .scratch k => (memRead k s).setWidth 32
  | .reserved => 0

/-- `HostRead(idx)` (20_memory.md R62): the value returned, a free one for a result register while busy (R206;
log 4). -/
def hostRead (idx : BitVec 5) (s : State) : Word :=
  if s.busy && isResultReg (hostReg idx) then Config.busyRead s.hostDraws else regValue (hostReg idx) s

/-- The step of a `HostRead`: no state of the block changes (R62); the host has the value. -/
def hostReadStep (idx : BitVec 5) (s : State) : State :=
  { s with
    hostLog := s.hostLog ++ [(idx, hostRead idx s)]
    hostDraws := if s.busy && isResultReg (hostReg idx) then s.hostDraws + 1 else s.hostDraws }

/-- `CommandWrite(w)` (30_encoding.md R96), `busy = 0` and `done` cleared. -/
def commandWrite (w : Word) (s : State) : State :=
  match decodeWord w with
  | .illegal _ => raise .illegalCommand s
  | .badArg _ => raise .invalidArgument s
  | .ok _ => accept w s

/-- A write while idle to an index other than CMD and STATUS (20_memory.md R63). -/
def idleWrite (r : HostReg) (w : Word) (s : State) : State :=
  match r with
  | .scratch k => memWrite k (w.extractLsb' 0 8) s
  | _ => s

/-- `HostWrite(idx, w)` (20_memory.md R63): STATUS at any time; every other index is refused while busy. -/
def hostWrite (idx : BitVec 5) (w : Word) (s : State) : State :=
  match hostReg idx with
  | .status => clearFlags w s
  | .cmd => cmdWrite (commandWrite w) s
  | r => if s.busy then raise .busyWrite s else idleWrite r w s

end Sys2Proof.Machine
end

