-- ==== Sys2Proof/Machine/Step.lean ====
section
/-! DEFINITION. The step of the machine (spec/00_scope.md R12): the host's next action if there is one, else the
block's own step. -/

namespace Sys2Proof.Machine

/-- One action of the host. A command line runs the command its word spells to its end; a word that spells none is
written to CMD all the same and refused there (30_encoding.md R96, R104; log 1, 7). -/
def hostStep (a : HostAct) (s : State) : Host.Outcome State Fault Refusal :=
  match a with
  | .command w =>
    match spelled w with
    | some i => exec i s
    | none => .next (hostWrite 0x00 w s)
  | .write idx w => .next (hostWrite idx w s)
  | .read idx => .next (hostReadStep idx s)
  | .tick => clockStep s
  | .rst => .next (resetEdge s)

/-- One step. -/
def step (s : State) : Host.Outcome State Fault Refusal :=
  match s.host with
  | [] => clockStep s
  | a :: rest => hostStep a { s with host := rest }

/-- The state whose very next step runs the instruction `w` spells: the host's next action is its command line. -/
def State.withFetchWord (s : State) (nbits w : Nat) : State :=
  { s with host := .command (BitVec.ofNat 32 (w % 2 ^ nbits)) :: s.host }

end Sys2Proof.Machine
end

