-- ==== Sys2Proof/Safety.lean ====
section
/-! DEFINITION. The words claims are stated in: launch premises (spec/70_reset_and_hazards.md R234), the invariant of
reachable states (spec/10_state.md R45), traces and their nominal time (spec/40_line_and_delay.md R129,
spec/70_reset_and_hazards.md R237), timed runs (R129, R131), the reference environments (spec/20_memory.md R72) and the expansions (spec/30_encoding.md R105). -/

namespace Sys2Proof.Machine

/-! ### Launch premises (R234) -/

/-- `Idle`: no command in progress, no delay counting. -/
def Idle (s : State) : Prop := s.busy = false ∧ s.dlyCnt = 0

/-- `Released`: the pin is an input. -/
def Released (s : State) : Prop := s.dir = .input

/-- `LatchLow`. -/
def LatchLow (s : State) : Prop := s.out = .low

/-- `NoRefusal`: the three error flags are 0. -/
def NoRefusal (s : State) : Prop := s.errArg = false ∧ s.errCmd = false ∧ s.errBusy = false

/-! ### The invariant of reachable states (R45) -/

/-- The commands that are one-wire operations (R45's list). -/
def isOneWire : Instr → Bool
  | .setInput => false
  | .setOutput => false
  | .writeLevel _ => false
  | .readLevel => false
  | .delay _ => false
  | .owReset => true
  | .owWriteBit _ => true
  | .owReadBit => true
  | .owWriteByte _ => true
  | .owReadByte => true
  | .getTemp _ => true
  | .decode _ => false

/-- The direction the last direction operation of a micro-program sets. -/
def lastDir (prog : List MicroStep) : Option Dir :=
  prog.foldl (fun d m => match m.op with
    | .setInput => some .input
    | .setOutput => some .output
    | _ => d) none

/-- The level the last `Write` of a micro-program sets. -/
def lastLevel (prog : List MicroStep) : Option Level :=
  prog.foldl (fun d m => match m.op with
    | .write l => some l
    | _ => d) none

/-- The micro-steps of the last accepted command `i` that are behind the sequencer. -/
def stepsDone (i : Instr) (s : State) : List MicroStep :=
  if s.busy then (microProgram i).take s.upc.toNat else microProgram i

/-- What holds of every state a run from reset reaches: R45, and beside it what makes it inductive (the line is where
the micro-steps done have put it; a counting delay stands at a `Delay`; the buffer is in canonical form). -/
structure Invariant (s : State) : Prop where
  busyNotDone : s.busy = true → s.done = false
  idleNoDelay : s.busy = false → s.dlyCnt = 0
  upcBound : s.upc.toNat ≤ 675
  resultBound : s.result.toNat ≤ 20983
  scratchWf : Memory.wf s.scratch
  command : s.busy = true →
    ∃ i, decodeWord (cmdWord s) = .ok i ∧ s.upc.toNat ≤ (microProgram i).length
  delaying : s.dlyCnt ≠ 0 →
    ∃ i m n, decodeWord (cmdWord s) = .ok i ∧ (microProgram i)[s.upc.toNat]? = some m ∧ m.op = .delay n
  line : ∀ i, decodeWord (cmdWord s) = .ok i →
    (∀ d ∈ lastDir (stepsDone i s), s.dir = d) ∧ (∀ l ∈ lastLevel (stepsDone i s), s.out = l)

/-! ### Runs of the sequencer (10_state.md R26, 60_exceptions.md R219) -/

/-- The sequencer steps of one micro-step: one, and for a `Delay` one more for each cycle it counts
(40_line_and_delay.md R128). -/
def stepTicks (m : MicroStep) : Nat :=
  match m.op with
  | .delay n => 1 + cycles n
  | _ => 1

/-- The sequencer steps of a command: those of its micro-program, and the completion step. -/
def commandTicks (i : Instr) : Nat := ((microProgram i).map stepTicks).sum + 1

/-! ### States after a command -/

/-- `s` after an idle block has accepted `op`, `arg`, run `n` micro-operations that appended the events `es`, and
completed (30_encoding.md R96, 10_state.md R26, R28): data registers, buffer and line as before. -/
def completed (op : Byte) (arg : BitVec 16) (n : BitVec 10) (es : List Event) (s : State) : State :=
  { s with
    cmdOp := op, cmdArg := arg, upc := n, busy := false, done := true
    events := es.reverse ++ s.events }

/-! ### Traces (40_line_and_delay.md R129, 41_onewire_bit.md, 42_onewire_byte.md, 43_temperature.md) -/

/-- The requested wait of an event, in microseconds. -/
def Event.waits : Event → Nat
  | .wait n => n
  | _ => 0

/-- The nominal time of a trace: the sum of its waits (R129). -/
def nominalTime (es : List Event) : Nat := (es.map Event.waits).sum

/-- Whether an event is a `Sample`. -/
def Event.isSample : Event → Bool
  | .sample _ => true
  | _ => false

/-- Whether an event is a `Wait`. -/
def Event.isWait : Event → Bool
  | .wait _ => true
  | _ => false

/-- A trace with the answers of the environment left out: what the block itself does. -/
def withoutLevels (es : List Event) : List Event :=
  es.map fun e => match e with
    | .sample _ => .sample .low
    | e => e

/-- How long the master holds the line Low in a trace (42_onewire_byte.md R162): the requested waits while the pin is
an output and the latch Low. -/
def lowTime : Dir → Level → List Event → Nat
  | _, _, [] => 0
  | _, l, .dirIn :: es => lowTime .input l es
  | _, l, .dirOut :: es => lowTime .output l es
  | d, _, .drive l :: es => lowTime d l es
  | d, l, .sample _ :: es => lowTime d l es
  | d, l, .wait n :: es => (if d = .output ∧ l = .low then n else 0) + lowTime d l es

/-- The trace of a bus reset (41_onewire_bit.md R141). -/
def resetEvents : List Event := [.dirOut, .drive .low, .wait 480, .dirIn, .wait 480]

/-- The trace of a write slot (41_onewire_bit.md R144). -/
def writeSlotEvents (b : Bool) : List Event :=
  if b then [.dirOut, .drive .low, .wait 1, .dirIn, .wait 59]
  else [.dirOut, .drive .low, .wait 59, .dirIn, .wait 1]

/-- The trace of a read slot (41_onewire_bit.md R147). -/
def readSlotEvents (l : Level) : List Event :=
  [.dirOut, .drive .low, .wait 1, .dirIn, .wait 15, .sample l, .wait 44]

/-- The trace of a byte written: eight slots, bit 0 first (42_onewire_byte.md R161). -/
def writeByteEvents (v : Byte) : List Event :=
  (List.range 8).flatMap fun i => writeSlotEvents (v.getLsbD i)

/-- The trace of GET_TEMP up to the first read slot (43_temperature.md R171, steps 1 to 5). -/
def getTempHead : List Event :=
  resetEvents ++ writeByteEvents 0xCC ++ writeByteEvents 0x44 ++ [.wait 750] ++ resetEvents ++
    writeByteEvents 0xCC ++ writeByteEvents 0xBE

/-- The trace of GET_TEMP with its 72 samples (43_temperature.md R171). -/
def getTempEvents (ls : List Level) : List Event := getTempHead ++ ls.flatMap readSlotEvents

/-- The number whose bit `i` is 1 when level `i` is High (42_onewire_byte.md R164). -/
def levelsValue : List Level → Nat
  | [] => 0
  | l :: ls => (if l = .high then 1 else 0) + 2 * levelsValue ls

/-- The environment's answers `ls` are the ones a state promises: each scripted level is given in its turn
(20_memory.md R72 `E_SEQ`); an answer past the script is free. -/
def answers (s : State) (ls : List Level) : Prop :=
  ∀ j l, j < ls.length → s.lineIn[j]? = some l → ls[j]? = some l

/-! ### Reference environments (20_memory.md R72), as scripts -/

/-- `E_PAD(p)`: the bits of the bytes, byte 0 first, bit 0 first. -/
def padLevels (p : List Byte) : List Level :=
  p.flatMap fun b => (List.range 8).map fun i => bitLevel (b.getLsbD i)

/-- `E_LOOP`: the bits of the write slots a trace holds, in order. -/
def loopLevels : List Event → List Level
  | .dirOut :: .drive .low :: .wait a :: .dirIn :: .wait b :: es =>
    if a + b = Config.tSlot ∧ a = Config.tW1Low then .high :: loopLevels es
    else if a + b = Config.tSlot ∧ a = Config.tW0Low then .low :: loopLevels es
    else loopLevels es
  | _ :: es => loopLevels es
  | [] => []

/-! ### Expansions (30_encoding.md R105) -/

/-- One line of an expansion: a command, or `RD DATA; SCR k, <that value>`. -/
inductive HostLine where
  | cmd (i : Instr)
  | saveByte (k : Fin 9)
deriving DecidableEq, Repr

/-- The index of `SCRATCHk`. -/
def scrIndex (k : Fin 9) : BitVec 5 := BitVec.ofNat 5 (16 + k.val)

/-- A host line on a state. -/
def runLine (x : HostLine) (s : State) : Host.Outcome State Fault Refusal :=
  match x with
  | .cmd i => exec i s
  | .saveByte k => .next (hostWrite (scrIndex k) (hostRead 0x02 s) (hostReadStep 0x02 s))

/-- Host lines in order. -/
def runLines : List HostLine → State → Host.Outcome State Fault Refusal
  | [], s => .next s
  | x :: xs, s =>
    match runLine x s with
    | .next t => runLines xs t
    | .fault r => .fault r
    | .refused r => .refused r

/-- The expansion of a command (R105); a command without one stands for itself. -/
def expansion : Instr → List HostLine
  | .owReset =>
    [.cmd .setOutput, .cmd (.writeLevel .low), .cmd (.delay 480), .cmd .setInput, .cmd (.delay 480)]
  | .owWriteBit true =>
    [.cmd .setOutput, .cmd (.writeLevel .low), .cmd (.delay 1), .cmd .setInput, .cmd (.delay 59)]
  | .owWriteBit false =>
    [.cmd .setOutput, .cmd (.writeLevel .low), .cmd (.delay 59), .cmd .setInput, .cmd (.delay 1)]
  | .owReadBit =>
    [.cmd .setOutput, .cmd (.writeLevel .low), .cmd (.delay 1), .cmd .setInput, .cmd (.delay 15),
      .cmd .readLevel, .cmd (.delay 44)]
  | .owWriteByte v => (List.range 8).map fun i => .cmd (.owWriteBit (v.getLsbD i))
  | .owReadByte => List.replicate 8 (.cmd .owReadBit)
  | .getTemp u =>
    [.cmd .owReset, .cmd (.owWriteByte 0xCC), .cmd (.owWriteByte 0x44), .cmd (.delay 750), .cmd .owReset,
      .cmd (.owWriteByte 0xCC), .cmd (.owWriteByte 0xBE)] ++
      ((List.finRange 9).flatMap fun k => [.cmd .owReadByte, .saveByte k]) ++ [.cmd (.decode u)]
  | .setInput => [.cmd .setInput]
  | .setOutput => [.cmd .setOutput]
  | .writeLevel l => [.cmd (.writeLevel l)]
  | .readLevel => [.cmd .readLevel]
  | .delay n => [.cmd (.delay n)]
  | .decode u => [.cmd (.decode u)]

/-! ### Nominal timing of the commands (70_reset_and_hazards.md R237) -/

/-- A row of R237's table: what one accepted command appends to the trace, and the sum of its requested waits in
microseconds. -/
structure TimingRow where
  ops : Nat
  waits : Nat
  samples : Nat
  micros : Nat
deriving DecidableEq, Repr

/-- R237's table, figure by figure. -/
def timingRow : Instr → TimingRow
  | .setInput => ⟨1, 0, 0, 0⟩
  | .setOutput => ⟨1, 0, 0, 0⟩
  | .writeLevel _ => ⟨1, 0, 0, 0⟩
  | .readLevel => ⟨1, 0, 1, 0⟩
  | .delay n => ⟨1, 1, 0, n.toNat⟩
  | .owReset => ⟨5, 2, 0, 960⟩
  | .owWriteBit _ => ⟨5, 2, 0, 60⟩
  | .owReadBit => ⟨7, 3, 1, 60⟩
  | .owWriteByte _ => ⟨40, 16, 0, 480⟩
  | .owReadByte => ⟨56, 24, 8, 480⟩
  | .getTemp _ => ⟨675, 285, 72, 8910⟩
  | .decode _ => ⟨0, 0, 0, 0⟩

/-! ### Real time (40_line_and_delay.md R129, R131) -/

/-- An event with the real times, in microseconds, at which its micro-operation starts and ends. -/
structure TimedEvent where
  event : Event
  start : ℝ
  stop : ℝ

/-- A `Wait(n)` lasts at least `cycles(n) / CLK_HZ` seconds, with no upper bound; any other micro-operation between 0
and `T_OVH` (log 10). -/
def TimedEvent.lawful (t : TimedEvent) : Prop :=
  match t.event with
  | .wait n => t.start + (cycles n : ℝ) * 1000000 / Config.clkHz ≤ t.stop
  | _ => t.start ≤ t.stop ∧ t.stop ≤ t.start + Config.tOvh

/-- Micro-operations one after another, each finished before the next begins (20_memory.md R75). -/
def TimedRun (ts : List TimedEvent) : Prop :=
  (∀ t ∈ ts, t.lawful) ∧ ts.Pairwise fun t u => t.stop ≤ u.start

end Sys2Proof.Machine
end

