-- ==== Sys2Proof/Certificates/Slice0/Obligations.lean ====
section
/-! DEFINITION. The statements for the provers. Each docstring names the rules of spec/ it formalises. -/

open Sys2Proof Sys2Proof.Machine

/-! ### Reset, invariant, reachable states -/

/-- 10_state.md R44: the reset table. -/
def Obligations.ResetStateIsTheResetTable : Prop :=
  let s := State.reset
  s.dir = .input ∧ s.out = .low ∧ s.dlyCnt = 0 ∧ s.busy = false ∧ s.done = false ∧
    s.errArg = false ∧ s.errCmd = false ∧ s.errBusy = false ∧ s.cmdOp = 0 ∧ s.cmdArg = 0 ∧ s.upc = 0 ∧
    s.acc = 0 ∧ s.celsius = 0 ∧ s.result = 0 ∧ (∀ k, memRead k s = 0) ∧ s.trace = []

/-- 70_reset_and_hazards.md R230, R232: a reset edge in whatever state gives every piece of the block's state its reset
value, a running command included; the host's queue and the environment go on (log 11, the model's choice). -/
def Obligations.ResetEdgeRestoresEveryField : Prop :=
  ∀ (s : State) (rest : List HostAct), s.host = .rst :: rest →
    step s = .next { State.reset with
      host := rest, hostLog := s.hostLog, lineIn := s.lineIn, draws := s.draws, hostDraws := s.hostDraws }

/-- The invariant holds after reset, whatever the host is going to do and the environment to answer. -/
def Obligations.InvariantHoldsAtReset : Prop :=
  ∀ (h : List HostAct) (ls : List Level), Invariant { State.reset with host := h, lineIn := ls }

/-- Every step keeps the invariant: of a host transaction, a command line, a sequencer step, a reset edge. -/
def Obligations.EveryStepKeepsTheInvariant : Prop :=
  ∀ s t : State, Invariant s → step s = .next t → Invariant t

/-- 60_exceptions.md R219: no step goes wrong and the sequencer is never stuck. The invariant rules out the states in
which the model stops (log 8). -/
def Obligations.NoStepFaultsUnderTheInvariant : Prop :=
  ∀ s : State, Invariant s → ∃ t, step s = .next t

/-- 10_state.md R45, of every state a run reaches from reset, whatever the host does and the environment answers. -/
def Obligations.ReachableStatesMeetTheStateRules : Prop :=
  ∀ (h : List HostAct) (ls : List Level) (n : Nat) (s : State),
    Sys2Proof.core.run n { State.reset with host := h, lineIn := ls } = .next s →
      (s.busy = true → s.done = false) ∧ (s.busy = false → s.dlyCnt = 0) ∧ s.upc.toNat ≤ 675 ∧
      s.celsius.toNat ≤ 2047 ∧ s.result.toNat ≤ 20983 ∧
      (∀ i, s.busy = false → decodeWord (cmdWord s) = .ok i → isOneWire i = true → s.dir = .input ∧ s.out = .low)

/-! ### Encodings -/

/-- 30_encoding.md R91 to R95: the decoder gives back every command it is handed encoded, Ok if its argument is
accepted, BadArg if not. -/
def Obligations.DecodeOfEncodeIsTheCommand : Prop :=
  ∀ i : Instr, decodeWord (encode i) = if i.wellFormed then .ok i else .badArg i

/-- 30_encoding.md R90, R92: a word has one meaning: the command it spells encodes to that word and no other. -/
def Obligations.EncodeOfDecodeIsTheWord : Prop :=
  ∀ (w : Word) (i : Instr), decodeWord w = .ok i ∨ decodeWord w = .badArg i → encode i = w

/-- 30_encoding.md R93, R94: the words that spell nothing are the words no row of the opcode map matches, and a word
spells the command of the one row it matches. -/
def Obligations.IllegalWordsMatchNoRow : Prop :=
  ∀ w : Word,
    ((∃ why, decodeWord w = .illegal why) ↔ ∀ r ∈ opcodeTable, r.matches w = false) ∧
    (∀ i, spelled w = some i → ∀ r ∈ opcodeTable, r.matches w = true ↔ r = opRow i)

/-- 30_encoding.md R93, R95: words written out from the opcode map, one or more for each family. -/
def Obligations.WordsOfTheMapDecode : Prop :=
  decodeWord 0x01000000 = .ok .setInput ∧ decodeWord 0x03000001 = .ok (.writeLevel .high) ∧
    decodeWord 0x050002EE = .ok (.delay 750) ∧ decodeWord 0x10000000 = .ok .owReset ∧
    decodeWord 0x11000001 = .ok (.owWriteBit true) ∧ decodeWord 0x130000CC = .ok (.owWriteByte 0xCC) ∧
    decodeWord 0x14000000 = .ok .owReadByte ∧ decodeWord 0x20000046 = .ok (.getTemp 0x46) ∧
    decodeWord 0x21000063 = .ok (.decode 0x63) ∧ decodeWord 0x2000004B = .badArg (.getTemp 0x4B) ∧
    decodeWord 0x2001004B = .illegal .reservedBits ∧ decodeWord 0x20000143 = .illegal .operandBits ∧
    decodeWord 0x00000000 = .illegal .unassignedOpcode

/-- A step runs the command the host's line spells: what a step adds around `exec` is that the line leaves the host's
queue. A word that spells none is written to CMD and refused there. -/
def Obligations.StepRunsTheSpelledCommand : Prop :=
  ∀ (s : State) (w : Word) (rest : List HostAct), s.host = .command w :: rest →
    (∀ i, spelled w = some i → step s = exec i { s with host := rest }) ∧
    (spelled w = none → step s = .next (hostWrite 0x00 w { s with host := rest })) ∧
    step ({ s with host := rest }.withFetchWord 32 w.toNat) = step s

/-! ### Layer 0: the line and the delay -/

/-- 40_line_and_delay.md R121, and its refusals. -/
def Obligations.SetInputReleasesTheLine : Prop :=
  encode .setInput = 0x01000000 ∧
  (∀ arg : BitVec 16, arg ≠ 0 → decodeWord (commandWord 0x01 arg) = .illegal .operandBits) ∧
  ∀ s : State,
    (s.busy = true → exec .setInput s = .next { s with errBusy := true }) ∧
    (Idle s → ∃ t, exec .setInput s = .next t ∧
      t = { completed 0x01 0 1 [.dirIn] s with dir := .input } ∧
      owOe t = false ∧ ∀ devLow, physicalLine t devLow = some (if devLow then .low else .high))

/-- 40_line_and_delay.md R122, and its refusals: the latched level appears on the line at once. -/
def Obligations.SetOutputDrivesTheLatchedLevel : Prop :=
  encode .setOutput = 0x02000000 ∧
  (∀ arg : BitVec 16, arg ≠ 0 → decodeWord (commandWord 0x02 arg) = .illegal .operandBits) ∧
  ∀ s : State,
    (s.busy = true → exec .setOutput s = .next { s with errBusy := true }) ∧
    (Idle s → ∃ t, exec .setOutput s = .next t ∧
      t = { completed 0x02 0 1 [.dirOut] s with dir := .output } ∧
      owOe t = true ∧ owOut t = s.out ∧ physicalLine t false = some s.out)

/-- 40_line_and_delay.md R123, and its refusals: exactly one update of the latch; no effect on the line while the pin is
an input; a High driven against the device has no defined level; only this command ever performs `Write(High)`. -/
def Obligations.WriteLevelUpdatesTheLatchOnce : Prop :=
  encode (.writeLevel .low) = 0x03000000 ∧ encode (.writeLevel .high) = 0x03000001 ∧
  (∀ arg : BitVec 16, 2 ≤ arg.toNat → decodeWord (commandWord 0x03 arg) = .illegal .operandBits) ∧
  (∀ i : Instr, (∀ l, i ≠ .writeLevel l) → ∀ m ∈ microProgram i, m.op ≠ .write .high) ∧
  ∀ (l : Level) (s : State),
    (s.busy = true → exec (.writeLevel l) s = .next { s with errBusy := true }) ∧
    (Idle s → ∃ t, exec (.writeLevel l) s = .next t ∧
      t = { completed 0x03 (if l = .high then 1 else 0) 1 [.drive l] s with out := l } ∧
      (s.dir = .input → ∀ devLow, physicalLine t devLow = physicalLine s devLow) ∧
      (s.dir = .output → physicalLine t false = some l ∧ physicalLine t true = if l = .high then none else some l))

/-- 40_line_and_delay.md R124, and its refusals: the level is the environment's answer, in either direction of the pin;
the command writes it, zero-extended, to `acc`. -/
def Obligations.ReadLevelReturnsTheAnswer : Prop :=
  encode .readLevel = 0x04000000 ∧
  (∀ arg : BitVec 16, arg ≠ 0 → decodeWord (commandWord 0x04 arg) = .illegal .operandBits) ∧
  ∀ s : State,
    (s.busy = true → exec .readLevel s = .next { s with errBusy := true }) ∧
    (Idle s → ∃ l, answers s [l] ∧
      exec .readLevel s = .next
        { completed 0x04 0 1 [.sample l] s with
          acc := if l = .high then 0x01 else 0x00
          lineIn := s.lineIn.drop 1
          draws := if s.lineIn = [] then s.draws + 1 else s.draws })

/-- 40_line_and_delay.md R127: every operand is accepted; one `Wait(n)`; nothing else changes and the counter is 0
afterwards; the cycles it stands for last at least `n` microseconds. -/
def Obligations.DelayWaitsAndChangesNothing : Prop :=
  ∀ (n : BitVec 16) (s : State),
    decodeWord (commandWord 0x05 n) = .ok (.delay n) ∧
    n.toNat * Config.clkHz ≤ cycles n.toNat * 1000000 ∧
    (s.busy = true → exec (.delay n) s = .next { s with errBusy := true }) ∧
    (Idle s → exec (.delay n) s = .next (completed 0x05 n 1 [.wait n.toNat] s))

/-- 40_line_and_delay.md R126: `cycles(n)` is the least number of cycles that last `n` microseconds; it fits the
counter, and the product 48 bits; it is exact at a clock of whole megahertz; the rule's examples. -/
def Obligations.CyclesIsTheRoundedUpQuotient : Prop :=
  (∀ n : Nat, n ≤ 65535 →
    IsLeast { q : Nat | n * Config.clkHz ≤ q * 1000000 } (cycles n) ∧ cycles n < 2 ^ 32 ∧
    n * Config.clkHz < 2 ^ 48 ∧ (delayCount n).toNat = cycles n) ∧
  (∀ hz n : Nat, 1000000 ∣ hz → cyclesAt hz n = n * (hz / 1000000)) ∧ cycles 0 = 0 ∧
  cyclesAt 48000000 480 = 23040 ∧ cyclesAt 32768 1 = 1 ∧ cyclesAt 32768 60 = 2 ∧ cyclesAt 32768 480 = 16

/-- 40_line_and_delay.md R128, 10_state.md R27: the sequencer's steps at a `Delay(n)`, whose end is also the end of its
micro-step (a byte read by GET_TEMP is stored then, 43_temperature.md R172). That the step which counts to zero is the
one that moves `upc` on is the model's reading (log 5). -/
def Obligations.DelayIsCountedByTheSequencer : Prop :=
  ∀ (i : Instr) (m : MicroStep) (n : Nat) (s : State),
    decodeWord (cmdWord s) = .ok i → (microProgram i)[s.upc.toNat]? = some m → m.op = .delay n →
      (s.dlyCnt = 0 → cycles n ≠ 0 →
        seqStep s = .next { s with dlyCnt := BitVec.ofNat 32 (cycles n), events := .wait n :: s.events }) ∧
      (s.dlyCnt = 0 → cycles n = 0 →
        seqStep s = .next (afterOp m { s with upc := s.upc + 1, events := .wait n :: s.events })) ∧
      (1 < s.dlyCnt.toNat → seqStep s = .next { s with dlyCnt := s.dlyCnt - 1 }) ∧
      (s.dlyCnt = 1 → seqStep s = .next (afterOp m { s with dlyCnt := 0, upc := s.upc + 1 }))

/-- 60_exceptions.md R219, 10_state.md R26, R65 of 20_memory.md: a command accepted by a bare write of its word and left
to the sequencer runs for exactly its ticks, busy until the last, and ends in the state that the one-step meaning
gives. -/
def Obligations.SequencerEndsWhereTheCommandEnds : Prop :=
  ∀ (i : Instr) (s : State), i.wellFormed = true → Idle s →
    Sys2Proof.core.run (commandTicks i) { hostWrite 0x00 (encode i) s with host := [] } = exec i { s with host := [] } ∧
    ∀ k < commandTicks i, ∃ t,
      Sys2Proof.core.run k { hostWrite 0x00 (encode i) s with host := [] } = .next t ∧ t.busy = true

/-! ### Layer 1: reset and bit slots -/

/-- 41_onewire_bit.md R141, R142, and the command's refusals: nothing is sampled. -/
def Obligations.OwResetRunsTheResetWindow : Prop :=
  encode .owReset = 0x10000000 ∧
  (∀ arg : BitVec 16, arg ≠ 0 → decodeWord (commandWord 0x10 arg) = .illegal .operandBits) ∧
  nominalTime resetEvents = 960 ∧
  ∀ s : State,
    (s.busy = true → exec .owReset s = .next { s with errBusy := true }) ∧
    (Idle s → exec .owReset s = .next
      { completed 0x10 0 5 [.dirOut, .drive .low, .wait 480, .dirIn, .wait 480] s with dir := .input, out := .low })

/-- 41_onewire_bit.md R143, R144, and the command's refusals. -/
def Obligations.OwWriteBitRunsOneWriteSlot : Prop :=
  encode (.owWriteBit false) = 0x11000000 ∧ encode (.owWriteBit true) = 0x11000001 ∧
  (∀ arg : BitVec 16, 2 ≤ arg.toNat → decodeWord (commandWord 0x11 arg) = .illegal .operandBits) ∧
  (∀ b, nominalTime (writeSlotEvents b) = 60) ∧
  ∀ (b : Bool) (s : State),
    (s.busy = true → exec (.owWriteBit b) s = .next { s with errBusy := true }) ∧
    (Idle s → exec (.owWriteBit b) s = .next
      { completed 0x11 (if b then 1 else 0) 5
          (if b then [.dirOut, .drive .low, .wait 1, .dirIn, .wait 59]
           else [.dirOut, .drive .low, .wait 59, .dirIn, .wait 1]) s with dir := .input, out := .low })

/-- 41_onewire_bit.md R146, R147, and the command's refusals: one sample, which becomes `acc`, bits 7:1 cleared. -/
def Obligations.OwReadBitRunsOneReadSlot : Prop :=
  encode .owReadBit = 0x12000000 ∧
  (∀ arg : BitVec 16, arg ≠ 0 → decodeWord (commandWord 0x12 arg) = .illegal .operandBits) ∧
  (∀ l, nominalTime (readSlotEvents l) = 60) ∧
  ∀ s : State,
    (s.busy = true → exec .owReadBit s = .next { s with errBusy := true }) ∧
    (Idle s → ∃ l, answers s [l] ∧
      exec .owReadBit s = .next
        { completed 0x12 0 7 [.dirOut, .drive .low, .wait 1, .dirIn, .wait 15, .sample l, .wait 44] s with
          acc := if l = .high then 0x01 else 0x00
          dir := .input, out := .low
          lineIn := s.lineIn.drop 1
          draws := if s.lineIn = [] then s.draws + 1 else s.draws })

/-! ### Layer 1: bytes -/

/-- 42_onewire_byte.md R161, and the command's refusals: eight slots, bit 0 first; nothing else changes; the corner
cases and the example. -/
def Obligations.OwWriteByteSendsBitZeroFirst : Prop :=
  (∀ v : Byte, encode (.owWriteByte v) = 0x13000000 ||| v.setWidth 32) ∧
  (∀ arg : BitVec 16, 256 ≤ arg.toNat → decodeWord (commandWord 0x13 arg) = .illegal .operandBits) ∧
  lowTime .input .low (writeByteEvents 0x00) = 472 ∧ lowTime .input .low (writeByteEvents 0xFF) = 8 ∧
  (writeByteEvents 0xCC).filter Event.isWait =
    [59, 1, 59, 1, 1, 59, 1, 59, 59, 1, 59, 1, 1, 59, 1, 59].map .wait ∧
  ∀ (v : Byte) (s : State),
    (writeByteEvents v).length = 40 ∧ (writeByteEvents v).countP Event.isWait = 16 ∧
    nominalTime (writeByteEvents v) = 480 ∧
    (s.busy = true → exec (.owWriteByte v) s = .next { s with errBusy := true }) ∧
    (Idle s → exec (.owWriteByte v) s = .next
      { completed 0x13 (v.setWidth 16) 40 (writeByteEvents v) s with dir := .input, out := .low })

/-- 42_onewire_byte.md R162: the time the master holds the line Low, of what the command appends to the trace. -/
def Obligations.WriteByteLowTimeCountsTheOnes : Prop :=
  ∀ (v : Byte) (s t : State), Idle s → exec (.owWriteByte v) s = .next t →
    ∃ es, t.trace = s.trace ++ es ∧
      lowTime s.dir s.out es + 58 * ((List.range 8).countP fun i => v.getLsbD i) = 472

/-- 42_onewire_byte.md R163, and the command's refusals: eight samples in turn, sample `i` in bit `i` of a cleared
accumulator. -/
def Obligations.OwReadByteAssemblesEightSamples : Prop :=
  encode .owReadByte = 0x14000000 ∧
  (∀ arg : BitVec 16, arg ≠ 0 → decodeWord (commandWord 0x14 arg) = .illegal .operandBits) ∧
  ∀ s : State,
    (s.busy = true → exec .owReadByte s = .next { s with errBusy := true }) ∧
    (Idle s → ∃ ls acc, ls.length = 8 ∧ answers s ls ∧
      (∀ i < 8, acc.getLsbD i = true ↔ ls[i]? = some .high) ∧
      (ls.flatMap readSlotEvents).length = 56 ∧ (ls.flatMap readSlotEvents).countP Event.isWait = 24 ∧
      (ls.flatMap readSlotEvents).countP Event.isSample = 8 ∧ nominalTime (ls.flatMap readSlotEvents) = 480 ∧
      exec .owReadByte s = .next
        { completed 0x14 0 56 (ls.flatMap readSlotEvents) s with
          acc := acc
          dir := .input, out := .low
          lineIn := s.lineIn.drop 8
          draws := s.draws + (8 - s.lineIn.length) })

/-- 42_onewire_byte.md R164: the closed form, for eight answers the environment gives. -/
def Obligations.ReadByteIsTheSumOfShiftedBits : Prop :=
  ∀ (s t : State) (ls rest : List Level), Idle s → ls.length = 8 → s.lineIn = ls ++ rest →
    exec .owReadByte s = .next t → t.acc.toNat = levelsValue ls

/-- 42_onewire_byte.md R165: a byte written, looped back and read, is the byte, whatever was in the accumulator. -/
def Obligations.LoopbackReturnsTheByteWritten : Prop :=
  ∀ (v : Byte) (s : State), Idle s → s.events = [] →
    ∃ t u, exec (.owWriteByte v) s = .next t ∧
      exec .owReadByte { t with lineIn := loopLevels t.trace } = .next u ∧ u.acc = v

/-! ### Layer 2 -/

/-- 43_temperature.md R171, R173: the whole of GET_TEMP. -/
def Obligations.GetTempRunsTheReadSequence : Prop :=
  ∀ (v : Byte) (u : TempUnit) (s : State), unitOf v = some u → Idle s → Memory.wf s.scratch →
    ∃ (t : State) (ls : List Level), exec (.getTemp v) s = .next t ∧ ls.length = 72 ∧ answers s ls ∧
      t.trace = s.trace ++ getTempEvents ls ∧
      (∀ k : Fin 9, (memRead k t).toNat = levelsValue ((ls.drop (8 * k.val)).take 8)) ∧
      t.acc = memRead 8 t ∧
      t.celsius = (if signSet (memRead 1 t) then 0 else celsiusField .unset (memRead 0 t) (memRead 1 t)) ∧
      t.result = (if signSet (memRead 1 t) then 0 else resultField u (celsiusField .unset (memRead 0 t) (memRead 1 t))) ∧
      t.dir = .input ∧ t.out = .low ∧ t.busy = false ∧ t.done = true ∧ t.dlyCnt = 0 ∧ t.upc = 675 ∧
      t.cmdOp = 0x20 ∧ t.cmdArg = v.setWidth 16 ∧
      t.errArg = s.errArg ∧ t.errCmd = s.errCmd ∧ t.errBusy = s.errBusy ∧ Memory.wf t.scratch ∧
      t.host = s.host ∧ t.hostLog = s.hostLog ∧ t.hostDraws = s.hostDraws ∧ t.lineIn = s.lineIn.drop 72

/-- 43_temperature.md R184: the totals of one GET_TEMP, and where its samples fall and land. The symbols are counted by
a wait that each holds once or twice: 480 twice in a RESET, 59 once in a write slot, 44 once in a read slot. -/
def Obligations.GetTempTotals : Prop :=
  ∀ (v : Byte) (s t : State), (unitOf v).isSome = true → Idle s → Memory.wf s.scratch →
    exec (.getTemp v) s = .next t →
    ∃ es, t.trace = s.trace ++ es ∧ (microProgram (.getTemp v)).length = 675 ∧ es.length = 675 ∧
      es.countP Event.isWait = 285 ∧ es.countP Event.isSample = 72 ∧ es.count .dirOut = 106 ∧
      es.count (.drive .low) = 106 ∧ es.count .dirIn = 106 ∧ nominalTime es = 8910 ∧
      es.count (.wait 480) = 2 * 2 ∧ es.count (.wait 59) = 32 ∧ es.count (.wait 44) = 72 ∧
      ∀ m < 72, ∃ pre l post, es = pre ++ .sample l :: post ∧ pre.countP Event.isSample = m ∧
        nominalTime pre = 4590 + 60 * m + 16 ∧
        ∀ k : Fin 9, k.val = m / 8 → (memRead k t).getLsbD (m % 8) = levelBit l

/-- 43_temperature.md R175, R176: DECODE is the decode step alone. -/
def Obligations.DecodeComputesTheReading : Prop :=
  ∀ (v : Byte) (u : TempUnit) (s : State), unitOf v = some u → Idle s →
    let lsb := memRead 0 s
    let msb := memRead 1 s
    let int7 := lsb.toNat / 16 + 16 * (msb.toNat % 8)
    let frac4 := 15 - lsb.toNat % 16
    ∃ t, exec (.decode v) s = .next t ∧
      t = { completed 0x21 (v.setWidth 16) 0 [] s with celsius := t.celsius, result := t.result } ∧
      (msb.getLsbD 3 = true → t.celsius = 0 ∧ t.result = 0) ∧
      (msb.getLsbD 3 = false → t.celsius.toNat = 16 * int7 + frac4 ∧
        (u = .celsius → t.result.toNat = 5 * t.celsius.toNat) ∧
        (u = .fahrenheit → t.result.toNat = 9 * t.celsius.toNat + 2560))

/-- 43_temperature.md R177: the sign case, in either unit, whatever the LSB; nothing records it, so that a genuine zero
leaves the same state. -/
def Obligations.SignIndicatorReadsZero : Prop :=
  ∀ s : State,
    ((memRead 1 s).getLsbD 3 = true → ∀ u : TempUnit, decodeStep u s = { s with celsius := 0, result := 0 }) ∧
    (memRead 0 s = 0x0F → (memRead 1 s).extractLsb' 0 4 = 0 →
      decodeStep .celsius s = { s with celsius := 0, result := 0 })

/-- 43_temperature.md R178: the exact Celsius value of a reading, from the fraction of the unset bits. -/
def Obligations.CelsiusResultIsExact : Prop :=
  ∀ s : State, (memRead 1 s).getLsbD 3 = false →
    let t := decodeStep .celsius s
    let int7 : Nat := (memRead 0 s).toNat / 16 + 16 * ((memRead 1 s).toNat % 8)
    let frac : ℚ := ∑ i ∈ Finset.range 4, if (memRead 0 s).getLsbD i then 0 else (2 : ℚ) ^ i / 16
    (t.result.toNat : ℚ) / 80 = int7 + frac ∧ (t.celsius.toNat : ℚ) / 16 = int7 + frac ∧
      t.result = 5 * t.celsius.setWidth 16 ∧ (t.celsius.toNat : ℚ) / 16 ≤ 127.9375

/-- 43_temperature.md R179: the exact Fahrenheit value, over the rationals. -/
def Obligations.FahrenheitResultIsExact : Prop :=
  ∀ s : State, (memRead 1 s).getLsbD 3 = false →
    let t := decodeStep .fahrenheit s
    (t.result.toNat : ℚ) / 80 = (t.celsius.toNat : ℚ) / 16 * 9 / 5 + 32 ∧
      t.result.toNat = 9 * t.celsius.toNat + 2560 ∧
      32 ≤ (t.result.toNat : ℚ) / 80 ∧ (t.result.toNat : ℚ) / 80 ≤ 262.2875

/-- 43_temperature.md R180: no quantity of the decoder overflows, sums are disjoint ors, and neither the high bits of the
MSB nor bytes 2 to 8 have any influence. -/
def Obligations.DecoderNeverOverflowsAndIgnoresTheRest : Prop :=
  (∀ lsb msb : Byte,
    (intField lsb msb).toNat = lsb.toNat / 16 + 16 * (msb.toNat % 8) ∧
    (lsb >>> 4) + ((msb &&& 0x07) <<< 4) = (lsb >>> 4) ||| ((msb &&& 0x07) <<< 4) ∧
    (celsiusField .unset lsb msb).toNat = 16 * (intField lsb msb).toNat + (15 - lsb.toNat % 16) ∧
    (resultField .celsius (celsiusField .unset lsb msb)).toNat = 5 * (celsiusField .unset lsb msb).toNat ∧
    (resultField .fahrenheit (celsiusField .unset lsb msb)).toNat = 9 * (celsiusField .unset lsb msb).toNat + 2560) ∧
  (∀ (u : TempUnit) (s t : State), memRead 0 s = memRead 0 t →
    (memRead 1 s).extractLsb' 0 4 = (memRead 1 t).extractLsb' 0 4 →
    (decodeStep u s).celsius = (decodeStep u t).celsius ∧ (decodeStep u s).result = (decodeStep u t).result)

/-- 43_temperature.md R187 (1), of the decode formula alone (R176's branch for a clear sign indicator), which is defined
for every byte 1: with the integer part fixed, a larger low nibble of the LSB gives a smaller value, in either unit.
With bit 3 of byte 1 set the block does not use the formula and reads 0 (SignIndicatorReadsZero). -/
def Obligations.FractionRunsBackwards : Prop :=
  ∀ (u : TempUnit) (a b msb : Byte), a.toNat / 16 = b.toNat / 16 → a.toNat % 16 < b.toNat % 16 →
    (resultField u (celsiusField Config.fracPolarity b msb)).toNat <
      (resultField u (celsiusField Config.fracPolarity a msb)).toNat

/-! ### Refusals -/

/-- 60_exceptions.md R201, 43_temperature.md R182: a spelled command with a unit character that is none of the four is
refused before any line activity: the flag, `done` cleared, nothing else; by a command line and by a bare write; the
rule's example. -/
def Obligations.BadUnitRaisesInvalidArgument : Prop :=
  (∀ (v : Byte) (s : State), v ∉ [0x43, 0x63, 0x46, 0x66] → s.busy = false →
    exec (.getTemp v) s = .next { s with done := false, errArg := true } ∧
    exec (.decode v) s = .next { s with done := false, errArg := true } ∧
    hostWrite 0x00 (commandWord 0x20 (v.setWidth 16)) s = { s with done := false, errArg := true } ∧
    hostWrite 0x00 (commandWord 0x21 (v.setWidth 16)) s = { s with done := false, errArg := true }) ∧
  statusWord (hostWrite 0x00 0x2000004B State.reset) = 0x00000004

/-- 60_exceptions.md R202: a word that spells nothing. -/
def Obligations.IllegalWordRaisesIllegalCommand : Prop :=
  (∀ (w : Word) (why : IllegalWord) (s : State), decodeWord w = .illegal why → s.busy = false →
    hostWrite 0x00 w s = { s with done := false, errCmd := true } ∧
    step (s.withFetchWord 32 w.toNat) = .next { s with done := false, errCmd := true }) ∧
  statusWord (hostWrite 0x00 0x00000000 State.reset) = 0x00000008 ∧
  statusWord (hostWrite 0x00 0x10000001 State.reset) = 0x00000008

/-- 60_exceptions.md R203: while busy, a write to any index but STATUS is dropped and flagged, whatever it carries, and
the command goes on undisturbed; a STATUS write is exempt. -/
def Obligations.BusyWriteIsDroppedAndFlagged : Prop :=
  ∀ (w : Word) (s : State), s.busy = true →
    (∀ idx : BitVec 5, idx ≠ 0x01 →
      hostWrite idx w s = { s with errBusy := true } ∧
      ∀ t, seqStep s = .next t → seqStep (hostWrite idx w s) = .next { t with errBusy := true }) ∧
    (∀ i, exec i s = .next { s with errBusy := true }) ∧
    (hostWrite 0x01 w s).errBusy = (if w.getLsbD 4 then false else s.errBusy)

/-- 60_exceptions.md R208: one cause at most, BusyWrite before IllegalCommand before InvalidArgument. -/
def Obligations.RefusalPriority : Prop :=
  ∀ (w : Word) (s : State),
    (s.busy = true → hostWrite 0x00 w s = raise .busyWrite s) ∧
    (s.busy = false → (∃ why, decodeWord w = .illegal why) → hostWrite 0x00 w s = raise .illegalCommand { s with done := false }) ∧
    (s.busy = false → (∃ i, decodeWord w = .badArg i) → hostWrite 0x00 w s = raise .invalidArgument { s with done := false }) ∧
    (s.busy = false → (∃ i, decodeWord w = .ok i) →
      (hostWrite 0x00 w s).errArg = s.errArg ∧ (hostWrite 0x00 w s).errCmd = s.errCmd ∧
      (hostWrite 0x00 w s).errBusy = s.errBusy ∧ (hostWrite 0x00 w s).busy = true) ∧
    decodeWord 0x2001004B = .illegal .reservedBits

/-- 60_exceptions.md R204, 30_encoding.md R96: after a CMD write to an idle block exactly one of these holds: it was
accepted, or it was refused with neither BUSY nor DONE and the cause's flag set. -/
def Obligations.CmdWriteIsAcceptedOrRefused : Prop :=
  ∀ (w : Word) (s : State), s.busy = false →
    let t := hostWrite 0x00 w s
    (t.busy = true ∧ t.done = false ∧ cmdWord t = w ∧ t.upc = 0 ∧ ∃ i, decodeWord w = .ok i) ∨
    (t.busy = false ∧ t.done = false ∧ cmdWord t = cmdWord s ∧ t.trace = s.trace ∧
      ((t.errArg = true ∧ ∃ i, decodeWord w = .badArg i) ∨ (t.errCmd = true ∧ ∃ why, decodeWord w = .illegal why)))

/-- 10_state.md R29, 60_exceptions.md R205: an error flag, once set, stays set through every step but a STATUS write with
its bit 1 and a reset edge. -/
def Obligations.ErrorFlagsAreSticky : Prop :=
  ∀ (c : Cause) (s t : State), step s = .next t → causeFlag c s = true →
    causeFlag c t = true ∨
      (∃ w rest, s.host = .write 0x01 w :: rest ∧ w.getLsbD c.code = true) ∨ (∃ rest, s.host = .rst :: rest)

/-- 10_state.md R28: DONE is set only by the completion of a command, and cleared by every CMD write to an idle block
that starts or refuses a command. -/
def Obligations.DoneIsSetByCompletionOnly : Prop :=
  ∀ s t : State, step s = .next t → s.done = false → t.done = true →
    (s.busy = true ∧ t.busy = false ∧ ∃ i, decodeWord (cmdWord s) = .ok i ∧ s.upc.toNat = (microProgram i).length) ∨
    (s.busy = false ∧ t.busy = false ∧ ∃ w rest i, s.host = .command w :: rest ∧ decodeWord w = .ok i)

/-! ### The host port -/

/-- 10_state.md R31: STATUS as read, and the write-1-to-clear at any time. -/
def Obligations.StatusRegister : Prop :=
  ∀ s : State,
    (hostRead 0x01 s).getLsbD 0 = s.busy ∧ (hostRead 0x01 s).getLsbD 1 = s.done ∧
    (hostRead 0x01 s).getLsbD 2 = s.errArg ∧ (hostRead 0x01 s).getLsbD 3 = s.errCmd ∧
    (hostRead 0x01 s).getLsbD 4 = s.errBusy ∧ (∀ i, 5 ≤ i → (hostRead 0x01 s).getLsbD i = false) ∧
    ∀ w : Word, hostWrite 0x01 w s =
      { s with
        errArg := if w.getLsbD 2 then false else s.errArg
        errCmd := if w.getLsbD 3 then false else s.errCmd
        errBusy := if w.getLsbD 4 then false else s.errBusy }

/-- 20_memory.md R63: HostWrite at every index, each write one step. -/
def Obligations.HostWriteFollowsItsRule : Prop :=
  ∀ (idx : BitVec 5) (w : Word) (s : State),
    (∀ rest, s.host = .write idx w :: rest → step s = .next (hostWrite idx w { s with host := rest })) ∧
    (idx = 0x01 → hostWrite idx w s =
      { s with
        errArg := if w.getLsbD 2 then false else s.errArg
        errCmd := if w.getLsbD 3 then false else s.errCmd
        errBusy := if w.getLsbD 4 then false else s.errBusy }) ∧
    (idx ≠ 0x01 → s.busy = true → hostWrite idx w s = { s with errBusy := true }) ∧
    (s.busy = false →
      (idx = 0x00 → hostWrite idx w s = commandWrite w { s with done := false }) ∧
      (∀ k : Fin 9, idx.toNat = 16 + k.val → hostWrite idx w s = memWrite k (w.extractLsb' 0 8) s) ∧
      ((2 ≤ idx.toNat ∧ idx.toNat ≤ 15) ∨ 25 ≤ idx.toNat → hostWrite idx w s = s))

/-- 10_state.md R32 to R37, 20_memory.md R62: HostRead at every index, with the values of an idle block, and what is
exact while busy. -/
def Obligations.HostReadFollowsTheRegisterMap : Prop :=
  ∀ s : State,
    hostRead 0x00 s = commandWord s.cmdOp s.cmdArg ∧ hostRead 0x01 s = statusWord s ∧
    (∀ idx : BitVec 5, (5 ≤ idx.toNat ∧ idx.toNat ≤ 15) ∨ 25 ≤ idx.toNat → hostRead idx s = 0) ∧
    (s.busy = false →
      (hostRead 0x02 s).toNat = s.acc.toNat ∧ (hostRead 0x03 s).toNat = s.result.toNat ∧
      (hostRead 0x04 s).toNat = s.celsius.toNat ∧
      ∀ (idx : BitVec 5) (k : Fin 9), idx.toNat = 16 + k.val → (hostRead idx s).toNat = (memRead k s).toNat)

/-- 60_exceptions.md R206: while busy, a read of a result register says nothing of the block: it is the same free value
whatever the registers hold. -/
def Obligations.BusyReadsRevealNothing : Prop :=
  ∀ (idx : BitVec 5) (s t : State), s.busy = true → t.busy = true → s.hostDraws = t.hostDraws →
    (2 ≤ idx.toNat ∧ idx.toNat ≤ 4) ∨ (16 ≤ idx.toNat ∧ idx.toNat ≤ 24) → hostRead idx s = hostRead idx t

/-- 20_memory.md R62: a HostRead changes no state of the block; the host has the value. -/
def Obligations.HostReadChangesNoState : Prop :=
  ∀ (idx : BitVec 5) (s : State) (rest : List HostAct), s.host = .read idx :: rest →
    ∃ t, step s = .next t ∧ t.hostLog = s.hostLog ++ [(idx, hostRead idx s)] ∧
      t = { s with host := rest, hostLog := t.hostLog, hostDraws := t.hostDraws }

/-- 10_state.md R35, 20_memory.md R78: a byte written to SCRATCHk while idle is read back, zero-extended, and the other
eight bytes are as before. -/
def Obligations.ScratchWriteThenRead : Prop :=
  ∀ (k j : Fin 9) (w : Word) (s : State), s.busy = false → Memory.wf s.scratch →
    (hostRead (scrIndex j) (hostWrite (scrIndex k) w s)).toNat =
      (if j = k then w.toNat % 256 else (memRead j s).toNat) ∧
    Memory.wf (hostWrite (scrIndex k) w s).scratch

/-- 20_memory.md R65: no host transaction changes what a running command does: the sequencer's next step after one
differs from the step without it in the error flags and the host's own record only. -/
def Obligations.HostCannotAlterARunningCommand : Prop :=
  ∀ (a : HostAct) (s t u : State), s.busy = true → a ≠ .tick → a ≠ .rst →
    hostStep a s = .next t → seqStep s = .next u →
    seqStep t = .next { u with
      errArg := t.errArg, errCmd := t.errCmd, errBusy := t.errBusy, hostLog := t.hostLog, hostDraws := t.hostDraws }

/-! ### Whole-machine rules -/

/-- 10_state.md R20 to R30: the frame of every command: what none of them writes, and which alone writes which. -/
def Obligations.CommandsWriteOnlyTheirRegisters : Prop :=
  ∀ (i : Instr) (s t : State), Idle s → exec i s = .next t →
    t.errCmd = s.errCmd ∧ t.errBusy = s.errBusy ∧ (i.wellFormed = true → t.errArg = s.errArg) ∧
    t.host = s.host ∧ t.hostLog = s.hostLog ∧ t.hostDraws = s.hostDraws ∧ t.dlyCnt = 0 ∧ t.busy = false ∧
    ((∀ v, i ≠ .getTemp v) → ∀ a : Nat, Memory.readByte t.scratch a = Memory.readByte s.scratch a) ∧
    ((∀ v, i ≠ .getTemp v) → (∀ v, i ≠ .decode v) → t.celsius = s.celsius ∧ t.result = s.result) ∧
    ((∀ v, i ≠ .getTemp v) → i ≠ .readLevel → i ≠ .owReadBit → i ≠ .owReadByte → t.acc = s.acc) ∧
    (isOneWire i = false → (∀ l, i ≠ .writeLevel l) → t.out = s.out) ∧
    (isOneWire i = false → i ≠ .setInput → i ≠ .setOutput → t.dir = s.dir)

/-- 10_state.md R27: the lengths of the micro-programs, and `upc` at the end of an accepted command. -/
def Obligations.MicroProgramLengths : Prop :=
  (∀ i : Instr, (microProgram i).length = (opRow i).length) ∧
  ∀ (i : Instr) (s t : State), i.wellFormed = true → s.busy = false → exec i s = .next t →
    t.upc.toNat = (opRow i).length

/-- 20_memory.md R61: which command reaches which space, through its micro-operations. -/
def Obligations.CommandsReachTheirSpaces : Prop :=
  ∀ i : Instr,
    ((∃ m ∈ microProgram i, m.op = .setInput ∨ m.op = .setOutput ∨ ∃ l, m.op = .write l) ↔
      (∀ n, i ≠ .delay n) ∧ i ≠ .readLevel ∧ ∀ v, i ≠ .decode v) ∧
    ((∃ m ∈ microProgram i, ∃ k, m.op = .read k) ↔
      i = .readLevel ∨ i = .owReadBit ∨ i = .owReadByte ∨ ∃ v, i = .getTemp v) ∧
    ((∃ m ∈ microProgram i, m.store ≠ none) ↔ ∃ v, i = .getTemp v)

/-- 20_memory.md R71: in the one-wire commands every `Read()` is performed while the pin is an input, so that the line is
Low exactly if the device pulls low; shown of the trace each of them appends: the last direction before a sample is
In. -/
def Obligations.OneWireSamplesAreTakenReleased : Prop :=
  ∀ (i : Instr) (s t : State), isOneWire i = true → Idle s → exec i s = .next t →
    ∃ es, t.trace = s.trace ++ es ∧ .drive .high ∉ es ∧
      ∀ pre l post, es = pre ++ .sample l :: post →
        ∃ a b, pre = a ++ .dirIn :: b ∧ .dirOut ∉ b

/-- 43_temperature.md R183, 60_exceptions.md R210: what the block does on the line does not depend on what the line
returns: two runs of a command that differ in the answers differ in nothing of the trace but the sampled levels. -/
def Obligations.AnswersChangeNoOperation : Prop :=
  ∀ (i : Instr) (s t s' t' : State), s.busy = s'.busy → exec i s = .next t → exec i s' = .next t' →
    ∃ es es', t.trace = s.trace ++ es ∧ t'.trace = s'.trace ++ es' ∧ withoutLevels es = withoutLevels es'

/-- 10_state.md R47: the results of the reading commands do not depend on what an earlier command left in `acc`,
`celsius`, `result` or, GET_TEMP's, in the buffer: two idle blocks with the same history of the line and the same
environment get the same results from them. DECODE's depend on bytes 0 and 1 alone. -/
def Obligations.ResultsDoNotDependOnStaleData : Prop :=
  ∀ (s s' : State), Idle s → Idle s' → s.events = s'.events → s.lineIn = s'.lineIn → s.draws = s'.draws →
    Memory.wf s.scratch → Memory.wf s'.scratch →
    (∀ i, i = .owReadBit ∨ i = .owReadByte → ∀ t t', exec i s = .next t → exec i s' = .next t' →
      t.acc = t'.acc ∧ t.trace = t'.trace ∧ t.dir = t'.dir ∧ t.out = t'.out) ∧
    (∀ v t t', (unitOf v).isSome = true → exec (.getTemp v) s = .next t → exec (.getTemp v) s' = .next t' →
      t.acc = t'.acc ∧ t.trace = t'.trace ∧ t.scratch = t'.scratch ∧ t.celsius = t'.celsius ∧
      t.result = t'.result ∧ t.dir = t'.dir ∧ t.out = t'.out) ∧
    (∀ v t t', (unitOf v).isSome = true → memRead 0 s = memRead 0 s' → memRead 1 s = memRead 1 s' →
      exec (.decode v) s = .next t → exec (.decode v) s' = .next t' →
      t.celsius = t'.celsius ∧ t.result = t'.result ∧ t.trace = t'.trace)

/-- 30_encoding.md R105, 43_temperature.md R185: a command and its expansion have the same trace and leave the same
data registers, buffer and line; OW_READ_BYTE's expansion alone leaves bit 7 in `acc`. -/
def Obligations.CommandsEqualTheirExpansions : Prop :=
  ∀ (i : Instr) (s : State), i.wellFormed = true → Idle s → Memory.wf s.scratch →
    ∃ t t', exec i s = .next t ∧ runLines (expansion i) s = .next t' ∧
      t'.trace = t.trace ∧ t'.scratch = t.scratch ∧ t'.celsius = t.celsius ∧ t'.result = t.result ∧
      t'.dir = t.dir ∧ t'.out = t.out ∧
      (i ≠ .owReadByte → t'.acc = t.acc) ∧ (i = .owReadByte → t'.acc = t.acc >>> 7)

/-- 70_reset_and_hazards.md R237, 40_line_and_delay.md R129, R131, 20_memory.md R75: the counts and the nominal time of
every command, of what it appends to the trace; and in real time a run of those micro-operations lasts at least that
nominal time, as each `Wait(n)` with an event before and after it keeps them at least `n` apart. -/
def Obligations.RealTimeIsAtLeastNominal : Prop :=
  ∀ (i : Instr) (s : State), i.wellFormed = true → s.busy = false →
    ∃ t es, exec i s = .next t ∧ t.trace = s.trace ++ es ∧
      es.length = (timingRow i).ops ∧ es.countP Event.isWait = (timingRow i).waits ∧
      es.countP Event.isSample = (timingRow i).samples ∧ nominalTime es = (timingRow i).micros ∧
      (es.map fun e => cyclesAt 48000000 (Event.waits e)).sum = 48 * (timingRow i).micros ∧
      ∀ ts : List TimedEvent, ts.map TimedEvent.event = es → TimedRun ts →
        (∀ first ∈ ts.head?, ∀ last ∈ ts.getLast?, ((timingRow i).micros : ℝ) ≤ last.stop - first.start) ∧
        ∀ (pre post : List TimedEvent) (before wait after : TimedEvent) (n : Nat),
          ts = pre ++ before :: wait :: after :: post → wait.event = .wait n → before.stop + n ≤ after.start

/-- The buffer's canonical form (log 14): two buffers in it that read alike at every index are the same data. -/
def Obligations.CanonicalBuffersReadingAlikeAreEqual : Prop :=
  ∀ m m' : Memory, Memory.wf m → Memory.wf m' → (∀ a, Memory.readByte m a = Memory.readByte m' a) → m = m'
end

