-- ==== Sys2Proof/Laws/Decode.lean ====
section
/-! SUPPORT. The fields of a command word, and what the decoder's parts answer. -/

namespace Sys2Proof

open Machine

/-- A command word as a number: `op << 24 | operand` (30_encoding.md R104). -/
theorem commandWord_toNat (op : Byte) (arg : BitVec 16) :
    (commandWord op arg).toNat = op.toNat * 2 ^ 24 + arg.toNat := by
  have h1 : (commandWord op arg).toNat = ((op.toNat <<< 8 ||| 0) <<< 16) ||| arg.toNat :=
    (BitVec.toNat_append (op ++ (0 : Byte)) arg).trans (by rw [BitVec.toNat_append]; rfl)
  rw [h1, Nat.or_zero, ← Nat.shiftLeft_add, Nat.shiftLeft_eq, Nat.mul_comm,
    ← Nat.two_pow_add_eq_or_of_lt (lt_of_lt_of_le arg.isLt (by norm_num))]

@[simp] theorem opField_commandWord (op : Byte) (arg : BitVec 16) : opField (commandWord op arg) = op := by
  apply BitVec.eq_of_toNat_eq
  simp only [opField, BitVec.extractLsb'_toNat, commandWord_toNat, Nat.shiftRight_eq_div_pow]
  have := op.isLt
  have := arg.isLt
  omega

@[simp] theorem rsvField_commandWord (op : Byte) (arg : BitVec 16) : rsvField (commandWord op arg) = 0 := by
  apply BitVec.eq_of_toNat_eq
  simp only [rsvField, BitVec.extractLsb'_toNat, commandWord_toNat, Nat.shiftRight_eq_div_pow]
  have := op.isLt
  have := arg.isLt
  show _ = 0
  omega

@[simp] theorem argField_commandWord (op : Byte) (arg : BitVec 16) : argField (commandWord op arg) = arg := by
  apply BitVec.eq_of_toNat_eq
  simp only [argField, BitVec.extractLsb'_toNat, commandWord_toNat, Nat.shiftRight_eq_div_pow]
  have := op.isLt
  have := arg.isLt
  omega

@[simp] theorem opField_encode (i : Instr) : opField (encode i) = (opRow i).op := by simp [encode]

@[simp] theorem argField_encode (i : Instr) : argField (encode i) = argOf i := by simp [encode]

/-- A word with no reserved bit is its opcode and operand. -/
theorem commandWord_fields {w : Word} (h : rsvField w = 0) : commandWord (opField w) (argField w) = w := by
  apply BitVec.eq_of_toNat_eq
  have h := congrArg BitVec.toNat h
  simp only [rsvField, BitVec.extractLsb'_toNat, Nat.shiftRight_eq_div_pow] at h
  simp only [opField, argField, BitVec.extractLsb'_toNat, commandWord_toNat, Nat.shiftRight_eq_div_pow]
  have h : w.toNat / 2 ^ 16 % 2 ^ 8 = 0 := h
  have := w.isLt
  omega

@[simp] theorem decodeWord_commandWord (op : Byte) (arg : BitVec 16) :
    decodeWord (commandWord op arg) = decodeOp op arg := by
  simp [decodeWord]

/-- What a spelled word is: Ok or BadArg of its command, by the argument's check. -/
theorem spelled_eq_some {w : Word} {i : Instr} (h : spelled w = some i) :
    decodeWord w = .ok i ∨ decodeWord w = .badArg i := by
  unfold spelled at h
  split at h <;> simp_all

/-! ### The formats (R91) -/

theorem lowByte_setWidth (v : Byte) : (v.setWidth 16).extractLsb' 0 8 = v := by
  apply BitVec.eq_of_toNat_eq
  have := v.isLt
  simp only [BitVec.extractLsb'_toNat, BitVec.toNat_setWidth, Nat.shiftRight_zero]
  omega

theorem highByte_setWidth (v : Byte) : (v.setWidth 16).extractLsb' 8 8 = 0 := by
  apply BitVec.eq_of_toNat_eq
  have := v.isLt
  simp only [BitVec.extractLsb'_toNat, BitVec.toNat_setWidth, Nat.shiftRight_eq_div_pow]
  show _ = 0
  omega

@[simp] theorem bitLevel_levelBit (l : Level) : bitLevel (levelBit l) = l := by cases l <;> rfl

@[simp] theorem levelBit_bitLevel (b : Bool) : levelBit (bitLevel b) = b := by cases b <;> rfl

@[simp] theorem formatN_zero (i : Instr) : formatN 0#16 i = .ok i := rfl

@[simp] theorem formatB_ofBool (b : Bool) (f : Bool → Instr) :
    formatB ((BitVec.ofBool b).setWidth 16) f = .ok (f b) := by
  cases b <;> rfl

@[simp] theorem formatY_byte (v : Byte) (f : Byte → Decoded) : formatY (v.setWidth 16) f = f v := by
  rw [formatY, if_pos (highByte_setWidth v), lowByte_setWidth]

/-- What format N answers when it spells a command. -/
theorem formatN_inv {arg : BitVec 16} {i j : Instr} (h : formatN arg i = .ok j ∨ formatN arg i = .badArg j) :
    j = i ∧ arg = 0 := by
  unfold formatN at h
  split_ifs at h with h0
  · simp at h
    exact ⟨h.symm, h0⟩
  · simp at h

/-- What format B answers when it spells a command. -/
theorem formatB_inv {arg : BitVec 16} {f : Bool → Instr} {j : Instr}
    (h : formatB arg f = .ok j ∨ formatB arg f = .badArg j) :
    ∃ b, j = f b ∧ arg = (BitVec.ofBool b).setWidth 16 := by
  unfold formatB at h
  split_ifs at h with h0
  · refine ⟨arg.getLsbD 0, by simpa using Eq.symm (by simpa using h), ?_⟩
    have h0 : arg.toNat / 2 ^ 1 % 2 ^ 15 = 0 := by
      have h := congrArg BitVec.toNat h0
      rwa [BitVec.extractLsb'_toNat, Nat.shiftRight_eq_div_pow] at h
    have := arg.isLt
    obtain h | h : arg.toNat = 0 ∨ arg.toNat = 1 := by omega
    · obtain rfl : arg = 0 := BitVec.eq_of_toNat_eq h
      rfl
    · obtain rfl : arg = 1 := BitVec.eq_of_toNat_eq h
      rfl
  · simp at h

/-- What format Y answers when it spells a command. -/
theorem formatY_inv {arg : BitVec 16} {f : Byte → Decoded} {j : Instr}
    (h : formatY arg f = .ok j ∨ formatY arg f = .badArg j) :
    ∃ v, (f v = .ok j ∨ f v = .badArg j) ∧ arg = v.setWidth 16 := by
  unfold formatY at h
  split_ifs at h with h0
  · refine ⟨arg.extractLsb' 0 8, h, ?_⟩
    have h0 : arg.toNat / 2 ^ 8 % 2 ^ 8 = 0 := by
      have h := congrArg BitVec.toNat h0
      rwa [BitVec.extractLsb'_toNat, Nat.shiftRight_eq_div_pow] at h
    have := arg.isLt
    apply BitVec.eq_of_toNat_eq
    simp only [BitVec.extractLsb'_toNat, BitVec.toNat_setWidth, Nat.shiftRight_zero]
    omega
  · simp at h

/-- The argument check keeps the command. -/
theorem checkArg_inv {i j : Instr} (h : checkArg i = .ok j ∨ checkArg i = .badArg j) : j = i := by
  unfold checkArg at h
  split_ifs at h <;> simp_all
end Sys2Proof
end

