-- ==== Sys2Proof/Laws/Memory.lean ====
section
/-! SUPPORT. The scratchpad buffer as a memory: a read after a write, and every operation keeps the canonical
form. -/

namespace Sys2Proof.Machine

/-- An index below every listed one reads as unlisted. -/
theorem readByte_of_lt {m : Memory} {a : Nat} (h : ∀ c ∈ m, a < c.1) : Memory.readByte m a = Memory.unlisted := by
  induction m with
  | nil => rfl
  | cons c m ih =>
    obtain ⟨b, x⟩ := c
    have hb : a < b := h _ (List.mem_cons_self ..)
    simp only [Memory.readByte, if_neg (Nat.ne_of_lt hb)]
    exact ih fun c hc => h c (List.mem_cons_of_mem _ hc)

/-- A read after a write: the byte written, and every other byte as before. -/
theorem readByte_writeByte {m : Memory} (hm : m.Pairwise fun x y => x.1 < y.1) (a b : Nat) (v : Byte) :
    Memory.readByte (Memory.writeByte m a v) b = if b = a then v else Memory.readByte m b := by
  induction m with
  | nil => by_cases hv : v = Memory.unlisted <;> simp [Memory.writeByte, Memory.readByte, hv]
  | cons c m ih =>
    obtain ⟨k, x⟩ := c
    obtain ⟨hk, hm'⟩ := List.pairwise_cons.mp hm
    rcases Nat.lt_trichotomy a k with h | rfl | h
    · have hlow : Memory.readByte ((k, x) :: m) a = Memory.unlisted := readByte_of_lt fun c hc => by
        rcases List.mem_cons.mp hc with rfl | hc
        · exact h
        · exact Nat.lt_trans h (hk c hc)
      by_cases hv : v = Memory.unlisted <;> by_cases hb : b = a <;>
        simp [Memory.writeByte, h, hv, hb, hlow, Memory.readByte]
    · have hlow : Memory.readByte m a = Memory.unlisted := readByte_of_lt hk
      by_cases hv : v = Memory.unlisted <;> by_cases hb : b = a <;>
        simp [Memory.writeByte, hv, hb, hlow, Memory.readByte]
    · have h1 : ¬a < k := by omega
      have h2 : ¬a = k := by omega
      by_cases hb : b = k <;> simp [Memory.writeByte, h1, h2, hb, Memory.readByte, ih hm', Ne.symm h2]

/-- What a write leaves listed: old entries, and the one written. -/
theorem mem_writeByte {m : Memory} {a : Nat} {v : Byte} {c : Host.Cell} (h : c ∈ Memory.writeByte m a v) :
    c ∈ m ∨ c = (a, v) ∧ v ≠ Memory.unlisted := by
  induction m with
  | nil =>
    by_cases hv : v = Memory.unlisted
    · simp [Memory.writeByte, hv] at h
    · simp only [Memory.writeByte, if_neg hv, List.mem_singleton] at h
      exact .inr ⟨h, hv⟩
  | cons d m ih =>
    obtain ⟨k, x⟩ := d
    simp only [Memory.writeByte] at h
    split_ifs at h with h1 hv h2 hv
    · exact .inl h
    · rcases List.mem_cons.mp h with h | h
      · exact .inr ⟨h, hv⟩
      · exact .inl h
    · exact .inl (List.mem_cons_of_mem _ h)
    · rcases List.mem_cons.mp h with h | h
      · exact .inr ⟨h, hv⟩
      · exact .inl (List.mem_cons_of_mem _ h)
    · rcases List.mem_cons.mp h with h | h
      · exact .inl (h ▸ List.mem_cons_self ..)
      · exact (ih h).imp (List.mem_cons_of_mem _) id

/-- A write keeps the indices rising. -/
theorem pairwise_writeByte {m : Memory} (hm : m.Pairwise fun x y => x.1 < y.1) (a : Nat) (v : Byte) :
    (Memory.writeByte m a v).Pairwise fun x y => x.1 < y.1 := by
  induction m with
  | nil => by_cases hv : v = Memory.unlisted <;> simp [Memory.writeByte, hv]
  | cons c m ih =>
    obtain ⟨k, x⟩ := c
    obtain ⟨hk, hm'⟩ := List.pairwise_cons.mp hm
    rcases Nat.lt_trichotomy a k with h | rfl | h
    · have hlow : ∀ c ∈ (k, x) :: m, a < c.1 := fun c hc => by
        rcases List.mem_cons.mp hc with rfl | hc
        · exact h
        · exact Nat.lt_trans h (hk c hc)
      by_cases hv : v = Memory.unlisted
      · simpa [Memory.writeByte, h, hv] using hm
      · simp only [Memory.writeByte, if_pos h, if_neg hv]
        exact List.pairwise_cons.mpr ⟨hlow, hm⟩
    · by_cases hv : v = Memory.unlisted
      · simpa [Memory.writeByte, hv] using hm'
      · simp only [Memory.writeByte, lt_irrefl, if_false, if_true, if_neg hv]
        exact List.pairwise_cons.mpr ⟨hk, hm'⟩
    · simp only [Memory.writeByte, if_neg (Nat.lt_asymm h), if_neg (Nat.ne_of_gt h)]
      refine List.pairwise_cons.mpr ⟨fun c hc => ?_, ih hm'⟩
      rcases mem_writeByte hc with hc | ⟨rfl, _⟩
      · exact hk c hc
      · exact h

/-- A write keeps the canonical form. -/
theorem wf_writeByte {m : Memory} (hm : Memory.wf m) {a : Nat} (ha : a < 9) (v : Byte) :
    Memory.wf (Memory.writeByte m a v) := by
  refine ⟨pairwise_writeByte hm.1 a v, fun c hc => ?_⟩
  rcases mem_writeByte hc with hc | ⟨rfl, hv⟩
  · exact hm.2 c hc
  · exact ⟨ha, hv⟩

/-- The host's and the sequencer's store keeps the canonical form. -/
theorem wf_memWrite {s : State} (hm : Memory.wf s.scratch) (k : Fin 9) (v : Byte) :
    Memory.wf (memWrite k v s).scratch :=
  wf_writeByte hm k.isLt v

/-- The memory after reset is in canonical form. -/
theorem wf_reset : Memory.wf State.reset.scratch := by decide

/-- `MemRead` after `MemWrite`. -/
theorem memRead_memWrite {s : State} (hm : Memory.wf s.scratch) (k j : Fin 9) (v : Byte) :
    memRead j (memWrite k v s) = if j = k then v else memRead j s := by
  simp only [memRead, memWrite, readByte_writeByte hm.1, Fin.ext_iff]

end Sys2Proof.Machine
end

