-- ==== Sys2Proof/Laws/State.lean ====
section
/-! SUPPORT. What each named update of the state does to each field: one lemma per field, true by rfl. -/

namespace Sys2Proof.Machine

variable (s : State)

/-! ### emit -/

@[simp] theorem emit_acc (e : Event) : (emit e s).acc = s.acc := rfl
@[simp] theorem emit_celsius (e : Event) : (emit e s).celsius = s.celsius := rfl
@[simp] theorem emit_result (e : Event) : (emit e s).result = s.result := rfl
@[simp] theorem emit_scratch (e : Event) : (emit e s).scratch = s.scratch := rfl
@[simp] theorem emit_upc (e : Event) : (emit e s).upc = s.upc := rfl
@[simp] theorem emit_cmdOp (e : Event) : (emit e s).cmdOp = s.cmdOp := rfl
@[simp] theorem emit_cmdArg (e : Event) : (emit e s).cmdArg = s.cmdArg := rfl
@[simp] theorem emit_busy (e : Event) : (emit e s).busy = s.busy := rfl
@[simp] theorem emit_done (e : Event) : (emit e s).done = s.done := rfl
@[simp] theorem emit_errArg (e : Event) : (emit e s).errArg = s.errArg := rfl
@[simp] theorem emit_errCmd (e : Event) : (emit e s).errCmd = s.errCmd := rfl
@[simp] theorem emit_errBusy (e : Event) : (emit e s).errBusy = s.errBusy := rfl
@[simp] theorem emit_dir (e : Event) : (emit e s).dir = s.dir := rfl
@[simp] theorem emit_out (e : Event) : (emit e s).out = s.out := rfl
@[simp] theorem emit_dlyCnt (e : Event) : (emit e s).dlyCnt = s.dlyCnt := rfl
@[simp] theorem emit_events (e : Event) : (emit e s).events = e :: s.events := rfl
@[simp] theorem emit_host (e : Event) : (emit e s).host = s.host := rfl
@[simp] theorem emit_hostLog (e : Event) : (emit e s).hostLog = s.hostLog := rfl
@[simp] theorem emit_lineIn (e : Event) : (emit e s).lineIn = s.lineIn := rfl
@[simp] theorem emit_draws (e : Event) : (emit e s).draws = s.draws := rfl
@[simp] theorem emit_hostDraws (e : Event) : (emit e s).hostDraws = s.hostDraws := rfl

/-! ### setInputOp -/

@[simp] theorem setInputOp_acc : (setInputOp s).acc = s.acc := rfl
@[simp] theorem setInputOp_celsius : (setInputOp s).celsius = s.celsius := rfl
@[simp] theorem setInputOp_result : (setInputOp s).result = s.result := rfl
@[simp] theorem setInputOp_scratch : (setInputOp s).scratch = s.scratch := rfl
@[simp] theorem setInputOp_upc : (setInputOp s).upc = s.upc := rfl
@[simp] theorem setInputOp_cmdOp : (setInputOp s).cmdOp = s.cmdOp := rfl
@[simp] theorem setInputOp_cmdArg : (setInputOp s).cmdArg = s.cmdArg := rfl
@[simp] theorem setInputOp_busy : (setInputOp s).busy = s.busy := rfl
@[simp] theorem setInputOp_done : (setInputOp s).done = s.done := rfl
@[simp] theorem setInputOp_errArg : (setInputOp s).errArg = s.errArg := rfl
@[simp] theorem setInputOp_errCmd : (setInputOp s).errCmd = s.errCmd := rfl
@[simp] theorem setInputOp_errBusy : (setInputOp s).errBusy = s.errBusy := rfl
@[simp] theorem setInputOp_dir : (setInputOp s).dir = .input := rfl
@[simp] theorem setInputOp_out : (setInputOp s).out = s.out := rfl
@[simp] theorem setInputOp_dlyCnt : (setInputOp s).dlyCnt = s.dlyCnt := rfl
@[simp] theorem setInputOp_events : (setInputOp s).events = .dirIn :: s.events := rfl
@[simp] theorem setInputOp_host : (setInputOp s).host = s.host := rfl
@[simp] theorem setInputOp_hostLog : (setInputOp s).hostLog = s.hostLog := rfl
@[simp] theorem setInputOp_lineIn : (setInputOp s).lineIn = s.lineIn := rfl
@[simp] theorem setInputOp_draws : (setInputOp s).draws = s.draws := rfl
@[simp] theorem setInputOp_hostDraws : (setInputOp s).hostDraws = s.hostDraws := rfl

/-! ### setOutputOp -/

@[simp] theorem setOutputOp_acc : (setOutputOp s).acc = s.acc := rfl
@[simp] theorem setOutputOp_celsius : (setOutputOp s).celsius = s.celsius := rfl
@[simp] theorem setOutputOp_result : (setOutputOp s).result = s.result := rfl
@[simp] theorem setOutputOp_scratch : (setOutputOp s).scratch = s.scratch := rfl
@[simp] theorem setOutputOp_upc : (setOutputOp s).upc = s.upc := rfl
@[simp] theorem setOutputOp_cmdOp : (setOutputOp s).cmdOp = s.cmdOp := rfl
@[simp] theorem setOutputOp_cmdArg : (setOutputOp s).cmdArg = s.cmdArg := rfl
@[simp] theorem setOutputOp_busy : (setOutputOp s).busy = s.busy := rfl
@[simp] theorem setOutputOp_done : (setOutputOp s).done = s.done := rfl
@[simp] theorem setOutputOp_errArg : (setOutputOp s).errArg = s.errArg := rfl
@[simp] theorem setOutputOp_errCmd : (setOutputOp s).errCmd = s.errCmd := rfl
@[simp] theorem setOutputOp_errBusy : (setOutputOp s).errBusy = s.errBusy := rfl
@[simp] theorem setOutputOp_dir : (setOutputOp s).dir = .output := rfl
@[simp] theorem setOutputOp_out : (setOutputOp s).out = s.out := rfl
@[simp] theorem setOutputOp_dlyCnt : (setOutputOp s).dlyCnt = s.dlyCnt := rfl
@[simp] theorem setOutputOp_events : (setOutputOp s).events = .dirOut :: s.events := rfl
@[simp] theorem setOutputOp_host : (setOutputOp s).host = s.host := rfl
@[simp] theorem setOutputOp_hostLog : (setOutputOp s).hostLog = s.hostLog := rfl
@[simp] theorem setOutputOp_lineIn : (setOutputOp s).lineIn = s.lineIn := rfl
@[simp] theorem setOutputOp_draws : (setOutputOp s).draws = s.draws := rfl
@[simp] theorem setOutputOp_hostDraws : (setOutputOp s).hostDraws = s.hostDraws := rfl

/-! ### writeOp -/

@[simp] theorem writeOp_acc (l : Level) : (writeOp l s).acc = s.acc := rfl
@[simp] theorem writeOp_celsius (l : Level) : (writeOp l s).celsius = s.celsius := rfl
@[simp] theorem writeOp_result (l : Level) : (writeOp l s).result = s.result := rfl
@[simp] theorem writeOp_scratch (l : Level) : (writeOp l s).scratch = s.scratch := rfl
@[simp] theorem writeOp_upc (l : Level) : (writeOp l s).upc = s.upc := rfl
@[simp] theorem writeOp_cmdOp (l : Level) : (writeOp l s).cmdOp = s.cmdOp := rfl
@[simp] theorem writeOp_cmdArg (l : Level) : (writeOp l s).cmdArg = s.cmdArg := rfl
@[simp] theorem writeOp_busy (l : Level) : (writeOp l s).busy = s.busy := rfl
@[simp] theorem writeOp_done (l : Level) : (writeOp l s).done = s.done := rfl
@[simp] theorem writeOp_errArg (l : Level) : (writeOp l s).errArg = s.errArg := rfl
@[simp] theorem writeOp_errCmd (l : Level) : (writeOp l s).errCmd = s.errCmd := rfl
@[simp] theorem writeOp_errBusy (l : Level) : (writeOp l s).errBusy = s.errBusy := rfl
@[simp] theorem writeOp_dir (l : Level) : (writeOp l s).dir = s.dir := rfl
@[simp] theorem writeOp_out (l : Level) : (writeOp l s).out = l := rfl
@[simp] theorem writeOp_dlyCnt (l : Level) : (writeOp l s).dlyCnt = s.dlyCnt := rfl
@[simp] theorem writeOp_events (l : Level) : (writeOp l s).events = .drive l :: s.events := rfl
@[simp] theorem writeOp_host (l : Level) : (writeOp l s).host = s.host := rfl
@[simp] theorem writeOp_hostLog (l : Level) : (writeOp l s).hostLog = s.hostLog := rfl
@[simp] theorem writeOp_lineIn (l : Level) : (writeOp l s).lineIn = s.lineIn := rfl
@[simp] theorem writeOp_draws (l : Level) : (writeOp l s).draws = s.draws := rfl
@[simp] theorem writeOp_hostDraws (l : Level) : (writeOp l s).hostDraws = s.hostDraws := rfl

/-! ### delayOp -/

@[simp] theorem delayOp_acc (n : Nat) : (delayOp n s).acc = s.acc := rfl
@[simp] theorem delayOp_celsius (n : Nat) : (delayOp n s).celsius = s.celsius := rfl
@[simp] theorem delayOp_result (n : Nat) : (delayOp n s).result = s.result := rfl
@[simp] theorem delayOp_scratch (n : Nat) : (delayOp n s).scratch = s.scratch := rfl
@[simp] theorem delayOp_upc (n : Nat) : (delayOp n s).upc = s.upc := rfl
@[simp] theorem delayOp_cmdOp (n : Nat) : (delayOp n s).cmdOp = s.cmdOp := rfl
@[simp] theorem delayOp_cmdArg (n : Nat) : (delayOp n s).cmdArg = s.cmdArg := rfl
@[simp] theorem delayOp_busy (n : Nat) : (delayOp n s).busy = s.busy := rfl
@[simp] theorem delayOp_done (n : Nat) : (delayOp n s).done = s.done := rfl
@[simp] theorem delayOp_errArg (n : Nat) : (delayOp n s).errArg = s.errArg := rfl
@[simp] theorem delayOp_errCmd (n : Nat) : (delayOp n s).errCmd = s.errCmd := rfl
@[simp] theorem delayOp_errBusy (n : Nat) : (delayOp n s).errBusy = s.errBusy := rfl
@[simp] theorem delayOp_dir (n : Nat) : (delayOp n s).dir = s.dir := rfl
@[simp] theorem delayOp_out (n : Nat) : (delayOp n s).out = s.out := rfl
@[simp] theorem delayOp_dlyCnt (n : Nat) : (delayOp n s).dlyCnt = 0 := rfl
@[simp] theorem delayOp_events (n : Nat) : (delayOp n s).events = .wait n :: s.events := rfl
@[simp] theorem delayOp_host (n : Nat) : (delayOp n s).host = s.host := rfl
@[simp] theorem delayOp_hostLog (n : Nat) : (delayOp n s).hostLog = s.hostLog := rfl
@[simp] theorem delayOp_lineIn (n : Nat) : (delayOp n s).lineIn = s.lineIn := rfl
@[simp] theorem delayOp_draws (n : Nat) : (delayOp n s).draws = s.draws := rfl
@[simp] theorem delayOp_hostDraws (n : Nat) : (delayOp n s).hostDraws = s.hostDraws := rfl

/-! ### loadDelay -/

@[simp] theorem loadDelay_acc (n : Nat) : (loadDelay n s).acc = s.acc := rfl
@[simp] theorem loadDelay_celsius (n : Nat) : (loadDelay n s).celsius = s.celsius := rfl
@[simp] theorem loadDelay_result (n : Nat) : (loadDelay n s).result = s.result := rfl
@[simp] theorem loadDelay_scratch (n : Nat) : (loadDelay n s).scratch = s.scratch := rfl
@[simp] theorem loadDelay_upc (n : Nat) : (loadDelay n s).upc = s.upc := rfl
@[simp] theorem loadDelay_cmdOp (n : Nat) : (loadDelay n s).cmdOp = s.cmdOp := rfl
@[simp] theorem loadDelay_cmdArg (n : Nat) : (loadDelay n s).cmdArg = s.cmdArg := rfl
@[simp] theorem loadDelay_busy (n : Nat) : (loadDelay n s).busy = s.busy := rfl
@[simp] theorem loadDelay_done (n : Nat) : (loadDelay n s).done = s.done := rfl
@[simp] theorem loadDelay_errArg (n : Nat) : (loadDelay n s).errArg = s.errArg := rfl
@[simp] theorem loadDelay_errCmd (n : Nat) : (loadDelay n s).errCmd = s.errCmd := rfl
@[simp] theorem loadDelay_errBusy (n : Nat) : (loadDelay n s).errBusy = s.errBusy := rfl
@[simp] theorem loadDelay_dir (n : Nat) : (loadDelay n s).dir = s.dir := rfl
@[simp] theorem loadDelay_out (n : Nat) : (loadDelay n s).out = s.out := rfl
@[simp] theorem loadDelay_dlyCnt (n : Nat) : (loadDelay n s).dlyCnt = delayCount n := rfl
@[simp] theorem loadDelay_events (n : Nat) : (loadDelay n s).events = .wait n :: s.events := rfl
@[simp] theorem loadDelay_host (n : Nat) : (loadDelay n s).host = s.host := rfl
@[simp] theorem loadDelay_hostLog (n : Nat) : (loadDelay n s).hostLog = s.hostLog := rfl
@[simp] theorem loadDelay_lineIn (n : Nat) : (loadDelay n s).lineIn = s.lineIn := rfl
@[simp] theorem loadDelay_draws (n : Nat) : (loadDelay n s).draws = s.draws := rfl
@[simp] theorem loadDelay_hostDraws (n : Nat) : (loadDelay n s).hostDraws = s.hostDraws := rfl

/-! ### countDelay -/

@[simp] theorem countDelay_acc : (countDelay s).acc = s.acc := rfl
@[simp] theorem countDelay_celsius : (countDelay s).celsius = s.celsius := rfl
@[simp] theorem countDelay_result : (countDelay s).result = s.result := rfl
@[simp] theorem countDelay_scratch : (countDelay s).scratch = s.scratch := rfl
@[simp] theorem countDelay_upc : (countDelay s).upc = s.upc := rfl
@[simp] theorem countDelay_cmdOp : (countDelay s).cmdOp = s.cmdOp := rfl
@[simp] theorem countDelay_cmdArg : (countDelay s).cmdArg = s.cmdArg := rfl
@[simp] theorem countDelay_busy : (countDelay s).busy = s.busy := rfl
@[simp] theorem countDelay_done : (countDelay s).done = s.done := rfl
@[simp] theorem countDelay_errArg : (countDelay s).errArg = s.errArg := rfl
@[simp] theorem countDelay_errCmd : (countDelay s).errCmd = s.errCmd := rfl
@[simp] theorem countDelay_errBusy : (countDelay s).errBusy = s.errBusy := rfl
@[simp] theorem countDelay_dir : (countDelay s).dir = s.dir := rfl
@[simp] theorem countDelay_out : (countDelay s).out = s.out := rfl
@[simp] theorem countDelay_dlyCnt : (countDelay s).dlyCnt = s.dlyCnt - 1 := rfl
@[simp] theorem countDelay_events : (countDelay s).events = s.events := rfl
@[simp] theorem countDelay_host : (countDelay s).host = s.host := rfl
@[simp] theorem countDelay_hostLog : (countDelay s).hostLog = s.hostLog := rfl
@[simp] theorem countDelay_lineIn : (countDelay s).lineIn = s.lineIn := rfl
@[simp] theorem countDelay_draws : (countDelay s).draws = s.draws := rfl
@[simp] theorem countDelay_hostDraws : (countDelay s).hostDraws = s.hostDraws := rfl

/-! ### memWrite -/

@[simp] theorem memWrite_acc (k : Fin 9) (v : Byte) : (memWrite k v s).acc = s.acc := rfl
@[simp] theorem memWrite_celsius (k : Fin 9) (v : Byte) : (memWrite k v s).celsius = s.celsius := rfl
@[simp] theorem memWrite_result (k : Fin 9) (v : Byte) : (memWrite k v s).result = s.result := rfl
@[simp] theorem memWrite_scratch (k : Fin 9) (v : Byte) : (memWrite k v s).scratch = Memory.writeByte s.scratch k.val v := rfl
@[simp] theorem memWrite_upc (k : Fin 9) (v : Byte) : (memWrite k v s).upc = s.upc := rfl
@[simp] theorem memWrite_cmdOp (k : Fin 9) (v : Byte) : (memWrite k v s).cmdOp = s.cmdOp := rfl
@[simp] theorem memWrite_cmdArg (k : Fin 9) (v : Byte) : (memWrite k v s).cmdArg = s.cmdArg := rfl
@[simp] theorem memWrite_busy (k : Fin 9) (v : Byte) : (memWrite k v s).busy = s.busy := rfl
@[simp] theorem memWrite_done (k : Fin 9) (v : Byte) : (memWrite k v s).done = s.done := rfl
@[simp] theorem memWrite_errArg (k : Fin 9) (v : Byte) : (memWrite k v s).errArg = s.errArg := rfl
@[simp] theorem memWrite_errCmd (k : Fin 9) (v : Byte) : (memWrite k v s).errCmd = s.errCmd := rfl
@[simp] theorem memWrite_errBusy (k : Fin 9) (v : Byte) : (memWrite k v s).errBusy = s.errBusy := rfl
@[simp] theorem memWrite_dir (k : Fin 9) (v : Byte) : (memWrite k v s).dir = s.dir := rfl
@[simp] theorem memWrite_out (k : Fin 9) (v : Byte) : (memWrite k v s).out = s.out := rfl
@[simp] theorem memWrite_dlyCnt (k : Fin 9) (v : Byte) : (memWrite k v s).dlyCnt = s.dlyCnt := rfl
@[simp] theorem memWrite_events (k : Fin 9) (v : Byte) : (memWrite k v s).events = s.events := rfl
@[simp] theorem memWrite_host (k : Fin 9) (v : Byte) : (memWrite k v s).host = s.host := rfl
@[simp] theorem memWrite_hostLog (k : Fin 9) (v : Byte) : (memWrite k v s).hostLog = s.hostLog := rfl
@[simp] theorem memWrite_lineIn (k : Fin 9) (v : Byte) : (memWrite k v s).lineIn = s.lineIn := rfl
@[simp] theorem memWrite_draws (k : Fin 9) (v : Byte) : (memWrite k v s).draws = s.draws := rfl
@[simp] theorem memWrite_hostDraws (k : Fin 9) (v : Byte) : (memWrite k v s).hostDraws = s.hostDraws := rfl

/-! ### accept -/

@[simp] theorem accept_acc (w : Word) : (accept w s).acc = s.acc := rfl
@[simp] theorem accept_celsius (w : Word) : (accept w s).celsius = s.celsius := rfl
@[simp] theorem accept_result (w : Word) : (accept w s).result = s.result := rfl
@[simp] theorem accept_scratch (w : Word) : (accept w s).scratch = s.scratch := rfl
@[simp] theorem accept_upc (w : Word) : (accept w s).upc = 0 := rfl
@[simp] theorem accept_cmdOp (w : Word) : (accept w s).cmdOp = opField w := rfl
@[simp] theorem accept_cmdArg (w : Word) : (accept w s).cmdArg = argField w := rfl
@[simp] theorem accept_busy (w : Word) : (accept w s).busy = true := rfl
@[simp] theorem accept_done (w : Word) : (accept w s).done = s.done := rfl
@[simp] theorem accept_errArg (w : Word) : (accept w s).errArg = s.errArg := rfl
@[simp] theorem accept_errCmd (w : Word) : (accept w s).errCmd = s.errCmd := rfl
@[simp] theorem accept_errBusy (w : Word) : (accept w s).errBusy = s.errBusy := rfl
@[simp] theorem accept_dir (w : Word) : (accept w s).dir = s.dir := rfl
@[simp] theorem accept_out (w : Word) : (accept w s).out = s.out := rfl
@[simp] theorem accept_dlyCnt (w : Word) : (accept w s).dlyCnt = s.dlyCnt := rfl
@[simp] theorem accept_events (w : Word) : (accept w s).events = s.events := rfl
@[simp] theorem accept_host (w : Word) : (accept w s).host = s.host := rfl
@[simp] theorem accept_hostLog (w : Word) : (accept w s).hostLog = s.hostLog := rfl
@[simp] theorem accept_lineIn (w : Word) : (accept w s).lineIn = s.lineIn := rfl
@[simp] theorem accept_draws (w : Word) : (accept w s).draws = s.draws := rfl
@[simp] theorem accept_hostDraws (w : Word) : (accept w s).hostDraws = s.hostDraws := rfl

/-! ### advance -/

@[simp] theorem advance_acc : (advance s).acc = s.acc := rfl
@[simp] theorem advance_celsius : (advance s).celsius = s.celsius := rfl
@[simp] theorem advance_result : (advance s).result = s.result := rfl
@[simp] theorem advance_scratch : (advance s).scratch = s.scratch := rfl
@[simp] theorem advance_upc : (advance s).upc = s.upc + 1 := rfl
@[simp] theorem advance_cmdOp : (advance s).cmdOp = s.cmdOp := rfl
@[simp] theorem advance_cmdArg : (advance s).cmdArg = s.cmdArg := rfl
@[simp] theorem advance_busy : (advance s).busy = s.busy := rfl
@[simp] theorem advance_done : (advance s).done = s.done := rfl
@[simp] theorem advance_errArg : (advance s).errArg = s.errArg := rfl
@[simp] theorem advance_errCmd : (advance s).errCmd = s.errCmd := rfl
@[simp] theorem advance_errBusy : (advance s).errBusy = s.errBusy := rfl
@[simp] theorem advance_dir : (advance s).dir = s.dir := rfl
@[simp] theorem advance_out : (advance s).out = s.out := rfl
@[simp] theorem advance_dlyCnt : (advance s).dlyCnt = s.dlyCnt := rfl
@[simp] theorem advance_events : (advance s).events = s.events := rfl
@[simp] theorem advance_host : (advance s).host = s.host := rfl
@[simp] theorem advance_hostLog : (advance s).hostLog = s.hostLog := rfl
@[simp] theorem advance_lineIn : (advance s).lineIn = s.lineIn := rfl
@[simp] theorem advance_draws : (advance s).draws = s.draws := rfl
@[simp] theorem advance_hostDraws : (advance s).hostDraws = s.hostDraws := rfl

/-! ### finishFlags -/

@[simp] theorem finishFlags_acc : (finishFlags s).acc = s.acc := rfl
@[simp] theorem finishFlags_celsius : (finishFlags s).celsius = s.celsius := rfl
@[simp] theorem finishFlags_result : (finishFlags s).result = s.result := rfl
@[simp] theorem finishFlags_scratch : (finishFlags s).scratch = s.scratch := rfl
@[simp] theorem finishFlags_upc : (finishFlags s).upc = s.upc := rfl
@[simp] theorem finishFlags_cmdOp : (finishFlags s).cmdOp = s.cmdOp := rfl
@[simp] theorem finishFlags_cmdArg : (finishFlags s).cmdArg = s.cmdArg := rfl
@[simp] theorem finishFlags_busy : (finishFlags s).busy = false := rfl
@[simp] theorem finishFlags_done : (finishFlags s).done = true := rfl
@[simp] theorem finishFlags_errArg : (finishFlags s).errArg = s.errArg := rfl
@[simp] theorem finishFlags_errCmd : (finishFlags s).errCmd = s.errCmd := rfl
@[simp] theorem finishFlags_errBusy : (finishFlags s).errBusy = s.errBusy := rfl
@[simp] theorem finishFlags_dir : (finishFlags s).dir = s.dir := rfl
@[simp] theorem finishFlags_out : (finishFlags s).out = s.out := rfl
@[simp] theorem finishFlags_dlyCnt : (finishFlags s).dlyCnt = s.dlyCnt := rfl
@[simp] theorem finishFlags_events : (finishFlags s).events = s.events := rfl
@[simp] theorem finishFlags_host : (finishFlags s).host = s.host := rfl
@[simp] theorem finishFlags_hostLog : (finishFlags s).hostLog = s.hostLog := rfl
@[simp] theorem finishFlags_lineIn : (finishFlags s).lineIn = s.lineIn := rfl
@[simp] theorem finishFlags_draws : (finishFlags s).draws = s.draws := rfl
@[simp] theorem finishFlags_hostDraws : (finishFlags s).hostDraws = s.hostDraws := rfl

/-! ### clearFlags -/

@[simp] theorem clearFlags_acc (w : Word) : (clearFlags w s).acc = s.acc := rfl
@[simp] theorem clearFlags_celsius (w : Word) : (clearFlags w s).celsius = s.celsius := rfl
@[simp] theorem clearFlags_result (w : Word) : (clearFlags w s).result = s.result := rfl
@[simp] theorem clearFlags_scratch (w : Word) : (clearFlags w s).scratch = s.scratch := rfl
@[simp] theorem clearFlags_upc (w : Word) : (clearFlags w s).upc = s.upc := rfl
@[simp] theorem clearFlags_cmdOp (w : Word) : (clearFlags w s).cmdOp = s.cmdOp := rfl
@[simp] theorem clearFlags_cmdArg (w : Word) : (clearFlags w s).cmdArg = s.cmdArg := rfl
@[simp] theorem clearFlags_busy (w : Word) : (clearFlags w s).busy = s.busy := rfl
@[simp] theorem clearFlags_done (w : Word) : (clearFlags w s).done = s.done := rfl
@[simp] theorem clearFlags_errArg (w : Word) : (clearFlags w s).errArg = (s.errArg && !w.getLsbD 2) := rfl
@[simp] theorem clearFlags_errCmd (w : Word) : (clearFlags w s).errCmd = (s.errCmd && !w.getLsbD 3) := rfl
@[simp] theorem clearFlags_errBusy (w : Word) : (clearFlags w s).errBusy = (s.errBusy && !w.getLsbD 4) := rfl
@[simp] theorem clearFlags_dir (w : Word) : (clearFlags w s).dir = s.dir := rfl
@[simp] theorem clearFlags_out (w : Word) : (clearFlags w s).out = s.out := rfl
@[simp] theorem clearFlags_dlyCnt (w : Word) : (clearFlags w s).dlyCnt = s.dlyCnt := rfl
@[simp] theorem clearFlags_events (w : Word) : (clearFlags w s).events = s.events := rfl
@[simp] theorem clearFlags_host (w : Word) : (clearFlags w s).host = s.host := rfl
@[simp] theorem clearFlags_hostLog (w : Word) : (clearFlags w s).hostLog = s.hostLog := rfl
@[simp] theorem clearFlags_lineIn (w : Word) : (clearFlags w s).lineIn = s.lineIn := rfl
@[simp] theorem clearFlags_draws (w : Word) : (clearFlags w s).draws = s.draws := rfl
@[simp] theorem clearFlags_hostDraws (w : Word) : (clearFlags w s).hostDraws = s.hostDraws := rfl

/-! ### hostReadStep -/

@[simp] theorem hostReadStep_acc (idx : BitVec 5) : (hostReadStep idx s).acc = s.acc := rfl
@[simp] theorem hostReadStep_celsius (idx : BitVec 5) : (hostReadStep idx s).celsius = s.celsius := rfl
@[simp] theorem hostReadStep_result (idx : BitVec 5) : (hostReadStep idx s).result = s.result := rfl
@[simp] theorem hostReadStep_scratch (idx : BitVec 5) : (hostReadStep idx s).scratch = s.scratch := rfl
@[simp] theorem hostReadStep_upc (idx : BitVec 5) : (hostReadStep idx s).upc = s.upc := rfl
@[simp] theorem hostReadStep_cmdOp (idx : BitVec 5) : (hostReadStep idx s).cmdOp = s.cmdOp := rfl
@[simp] theorem hostReadStep_cmdArg (idx : BitVec 5) : (hostReadStep idx s).cmdArg = s.cmdArg := rfl
@[simp] theorem hostReadStep_busy (idx : BitVec 5) : (hostReadStep idx s).busy = s.busy := rfl
@[simp] theorem hostReadStep_done (idx : BitVec 5) : (hostReadStep idx s).done = s.done := rfl
@[simp] theorem hostReadStep_errArg (idx : BitVec 5) : (hostReadStep idx s).errArg = s.errArg := rfl
@[simp] theorem hostReadStep_errCmd (idx : BitVec 5) : (hostReadStep idx s).errCmd = s.errCmd := rfl
@[simp] theorem hostReadStep_errBusy (idx : BitVec 5) : (hostReadStep idx s).errBusy = s.errBusy := rfl
@[simp] theorem hostReadStep_dir (idx : BitVec 5) : (hostReadStep idx s).dir = s.dir := rfl
@[simp] theorem hostReadStep_out (idx : BitVec 5) : (hostReadStep idx s).out = s.out := rfl
@[simp] theorem hostReadStep_dlyCnt (idx : BitVec 5) : (hostReadStep idx s).dlyCnt = s.dlyCnt := rfl
@[simp] theorem hostReadStep_events (idx : BitVec 5) : (hostReadStep idx s).events = s.events := rfl
@[simp] theorem hostReadStep_host (idx : BitVec 5) : (hostReadStep idx s).host = s.host := rfl
@[simp] theorem hostReadStep_hostLog (idx : BitVec 5) : (hostReadStep idx s).hostLog = s.hostLog ++ [(idx, hostRead idx s)] := rfl
@[simp] theorem hostReadStep_lineIn (idx : BitVec 5) : (hostReadStep idx s).lineIn = s.lineIn := rfl
@[simp] theorem hostReadStep_draws (idx : BitVec 5) : (hostReadStep idx s).draws = s.draws := rfl
@[simp] theorem hostReadStep_hostDraws (idx : BitVec 5) : (hostReadStep idx s).hostDraws = if s.busy && isResultReg (hostReg idx) then s.hostDraws + 1 else s.hostDraws := rfl

/-! ### The trace -/

@[simp] theorem emit_trace (e : Event) : (emit e s).trace = s.trace ++ [e] := by
  simp [State.trace]
@[simp] theorem setInputOp_trace : (setInputOp s).trace = s.trace ++ [.dirIn] := by
  simp [State.trace]
@[simp] theorem setOutputOp_trace : (setOutputOp s).trace = s.trace ++ [.dirOut] := by
  simp [State.trace]
@[simp] theorem writeOp_trace (l : Level) : (writeOp l s).trace = s.trace ++ [.drive l] := by
  simp [State.trace]
@[simp] theorem delayOp_trace (n : Nat) : (delayOp n s).trace = s.trace ++ [.wait n] := by
  simp [State.trace]
@[simp] theorem loadDelay_trace (n : Nat) : (loadDelay n s).trace = s.trace ++ [.wait n] := by
  simp [State.trace]

@[simp] theorem memWrite_trace (k : Fin 9) (v : Byte) : (memWrite k v s).trace = s.trace := rfl
@[simp] theorem accept_trace (w : Word) : (accept w s).trace = s.trace := rfl
@[simp] theorem advance_trace : (advance s).trace = s.trace := rfl
@[simp] theorem finishFlags_trace : (finishFlags s).trace = s.trace := rfl
@[simp] theorem clearFlags_trace (w : Word) : (clearFlags w s).trace = s.trace := rfl
@[simp] theorem countDelay_trace : (countDelay s).trace = s.trace := rfl
@[simp] theorem hostReadStep_trace (idx : BitVec 5) : (hostReadStep idx s).trace = s.trace := rfl

end Sys2Proof.Machine
end

