-- ==== Sys2Proof/Laws/HostPort.lean ====
section
/-! SUPPORT. The register map and everything a host transaction can do. -/

namespace Sys2Proof.Machine

/-! ### The register map (10_state.md R37) -/

theorem hostReg_scratch {idx : BitVec 5} {k : Fin 9} (h : idx.toNat = 16 + k.val) : hostReg idx = .scratch k := by
  have hk := k.isLt
  have ne : ∀ c : BitVec 5, c.toNat < 16 → idx ≠ c := by
    rintro c hc rfl
    omega
  rw [hostReg, if_neg (ne 0x00 (by decide)), if_neg (ne 0x01 (by decide)), if_neg (ne 0x02 (by decide)),
    if_neg (ne 0x03 (by decide)), if_neg (ne 0x04 (by decide)), dif_pos (by omega)]
  congr 1
  apply Fin.ext
  show idx.toNat - 16 = k.val
  omega

theorem hostReg_reserved {idx : BitVec 5} (h : (5 ≤ idx.toNat ∧ idx.toNat ≤ 15) ∨ 25 ≤ idx.toNat) :
    hostReg idx = .reserved := by
  have ne : ∀ c : BitVec 5, c.toNat < 5 → idx ≠ c := by
    rintro c hc rfl
    omega
  rw [hostReg, if_neg (ne 0x00 (by decide)), if_neg (ne 0x01 (by decide)), if_neg (ne 0x02 (by decide)),
    if_neg (ne 0x03 (by decide)), if_neg (ne 0x04 (by decide)), dif_neg (by omega)]

theorem hostReg_eq_status {idx : BitVec 5} : hostReg idx = .status ↔ idx = 0x01 := by
  revert idx
  decide

/-! ### HostWrite (20_memory.md R63) -/

theorem hostWrite_status (w : Word) (s : State) : hostWrite 0x01 w s = clearFlags w s := rfl

theorem hostWrite_cmd (w : Word) (s : State) : hostWrite 0x00 w s = cmdWrite (commandWrite w) s := rfl

/-- A write while busy, to anything but STATUS (60_exceptions.md R203). -/
theorem hostWrite_busy {idx : BitVec 5} (hi : idx ≠ 0x01) (w : Word) {s : State} (hb : s.busy = true) :
    hostWrite idx w s = { s with errBusy := true } := by
  have hne : hostReg idx ≠ .status := mt hostReg_eq_status.mp hi
  unfold hostWrite
  split <;> simp_all [cmdWrite, raise]

/-- Everything a host write can do. -/
theorem hostWrite_cases (idx : BitVec 5) (w : Word) (s : State) :
    hostWrite idx w s = clearFlags w s ∧ idx = 0x01 ∨
    hostWrite idx w s = { s with errBusy := true } ∧ s.busy = true ∨
    hostWrite idx w s = commandWrite w { s with done := false } ∧ s.busy = false ∧ idx = 0x00 ∨
    (∃ k v, hostWrite idx w s = memWrite k v s ∧ s.busy = false) ∨
    hostWrite idx w s = s ∧ s.busy = false := by
  by_cases hi : idx = 0x01
  · subst hi
    exact .inl ⟨rfl, rfl⟩
  by_cases hb : s.busy = true
  · exact .inr (.inl ⟨hostWrite_busy hi w hb, hb⟩)
  have hf : s.busy = false := by simpa using hb
  refine .inr (.inr ?_)
  by_cases hc : idx = 0x00
  · subst hc
    exact .inl ⟨by rw [hostWrite_cmd, cmdWrite, if_neg hb], hf, rfl⟩
  refine .inr ?_
  have h0 : hostReg idx ≠ .cmd := by
    revert idx
    decide
  have h1 : hostReg idx ≠ .status := mt hostReg_eq_status.mp hi
  unfold hostWrite
  split
  · exact absurd ‹_› h1
  · exact absurd ‹_› h0
  · rw [if_neg hb]
    unfold idleWrite
    split
    · exact .inl ⟨_, _, rfl, hf⟩
    · exact .inr ⟨rfl, hf⟩

/-- Everything a CMD write to an idle block can do (30_encoding.md R96). -/
theorem commandWrite_cases (w : Word) (s : State) :
    (∃ i, decodeWord w = .ok i ∧ commandWrite w s = accept w s) ∨
    (∃ i, decodeWord w = .badArg i ∧ commandWrite w s = { s with errArg := true }) ∨
    (∃ why, decodeWord w = .illegal why ∧ commandWrite w s = { s with errCmd := true }) := by
  unfold commandWrite
  cases h : decodeWord w <;> simp [raise]

end Sys2Proof.Machine
end

