-- ==== Sys2Proof/Laws/PerInstr.lean ====
section
/-! SUPPORT. A fact about each instruction as syntax: its encoded word is one its row of the opcode map matches
(spec/30_encoding.md R93). -/

namespace Sys2Proof

/-- The and of two words, half by half. -/
theorem append_and (a b c d : BitVec 16) : (a ++ b) &&& (c ++ d) = (a &&& c) ++ (b &&& d) := by
  ext i hi
  simp only [BitVec.getElem_and, BitVec.getElem_append]
  split <;> rfl

/-- A command word under a mask that keeps the opcode and the reserved bits whole. -/
theorem commandWord_and (op : Byte) (arg m : BitVec 16) :
    commandWord op arg &&& (0xFFFF#16 ++ m) = commandWord op (arg &&& m) := by
  refine (append_and (op ++ (0 : Byte)) arg 0xFFFF#16 m).trans ?_
  rw [show (0xFFFF#16) = BitVec.allOnes 16 from rfl, BitVec.and_allOnes]
  rfl

/-- A row matches a word of its opcode whose operand has no bit outside the operand field. -/
theorem matches_commandWord {r : OpRow} {m arg : BitVec 16} (hm : r.mask = 0xFFFF#16 ++ m)
    (hb : r.bits = commandWord r.op 0) (ha : arg &&& m = 0) : r.matches (commandWord r.op arg) = true := by
  rw [OpRow.matches, hm, commandWord_and, ha, hb]
  exact beq_self_eq_true _

/-- A byte has no bit in the unused half of format Y. -/
theorem byte_and_unused (v : Byte) : v.setWidth 16 &&& 0xFF00#16 = 0 := by
  revert v
  decide

namespace Laws.EncodeRow

/-- The encoded word of the instruction is one its row matches. -/
def Statement (i : Instr) : Prop := (opRow i).matches (encode i) = true

theorem setInput : Statement .setInput := by
  unfold Statement
  decide

theorem setOutput : Statement .setOutput := by
  unfold Statement
  decide

theorem writeLevel (l : Level) : Statement (.writeLevel l) := by
  unfold Statement
  cases l <;> decide

theorem readLevel : Statement .readLevel := by
  unfold Statement
  decide

theorem delay (n : BitVec 16) : Statement (.delay n) :=
  matches_commandWord (m := 0) rfl
    (by decide : (0x05000000 : Word) = commandWord 0x05 0) (by simp)

theorem owReset : Statement .owReset := by
  unfold Statement
  decide

theorem owWriteBit (b : Bool) : Statement (.owWriteBit b) := by
  unfold Statement
  cases b <;> decide

theorem owReadBit : Statement .owReadBit := by
  unfold Statement
  decide

theorem owWriteByte (v : Byte) : Statement (.owWriteByte v) :=
  matches_commandWord (m := 0xFF00) rfl
    (by decide : (0x13000000 : Word) = commandWord 0x13 0) (byte_and_unused v)

theorem owReadByte : Statement .owReadByte := by
  unfold Statement
  decide

theorem getTemp (v : Byte) : Statement (.getTemp v) :=
  matches_commandWord (m := 0xFF00) rfl
    (by decide : (0x20000000 : Word) = commandWord 0x20 0) (byte_and_unused v)

theorem decode (v : Byte) : Statement (.decode v) :=
  matches_commandWord (m := 0xFF00) rfl
    (by decide : (0x21000000 : Word) = commandWord 0x21 0) (byte_and_unused v)

end Laws.EncodeRow

end Sys2Proof
end

