-- ==== Sys2Proof/Laws/Sequencer.lean ====
section
/-! SUPPORT. What running micro-steps does: which fields they can touch, and for each shared stretch of a
micro-program everything it leaves behind. -/

namespace Sys2Proof.Machine

/-! ### Micro-programs in order -/

@[simp] theorem runSteps_nil (s : State) : runSteps [] s = s := rfl

@[simp] theorem runSteps_cons (m : MicroStep) (p : List MicroStep) (s : State) :
    runSteps (m :: p) s = runSteps p (runStep s m) := rfl

theorem runSteps_append (p q : List MicroStep) (s : State) : runSteps (p ++ q) s = runSteps q (runSteps p s) :=
  List.foldl_append

/-! ### What a command's meaning answers -/

/-- Every meaning is the one shape: run the micro-program, or refuse the argument. -/
theorem exec_eq (i : Instr) (s : State) :
    exec i s = if i.wellFormed then runCommand i (microProgram i) (finalDecode i) s else refuseArgument s := by
  cases i with
  | getTemp v =>
    simp only [exec, execGetTemp, Instr.wellFormed, finalDecode, microProgram]
    split <;> rename_i h <;> simp [h]
  | decode v =>
    simp only [exec, execDecode, Instr.wellFormed, finalDecode, microProgram]
    split <;> rename_i h <;> simp [h]
  | _ => rfl

/-- A well-formed command on an idle block runs to its completion step. -/
theorem exec_idle {i : Instr} {s : State} (hw : i.wellFormed = true) (hb : s.busy = false) :
    exec i s = .next (complete (finalDecode i)
      (runSteps (microProgram i) (accept (encode i) { s with done := false }))) := by
  simp [exec_eq, hw, runCommand, cmdWrite, hb]

/-- A command on a busy block is refused (60_exceptions.md R203). -/
theorem exec_busy {i : Instr} {s : State} (hb : s.busy = true) : exec i s = .next { s with errBusy := true } := by
  rw [exec_eq]
  split <;> simp [runCommand, refuseArgument, cmdWrite, hb, raise]

/-- A command with a bad unit character is refused (60_exceptions.md R201). -/
theorem exec_badArg {i : Instr} {s : State} (hw : i.wellFormed = false) (hb : s.busy = false) :
    exec i s = .next { s with done := false, errArg := true } := by
  simp [exec_eq, hw, refuseArgument, cmdWrite, hb, raise]

/-- The decode step writes `celsius` and `result` and nothing else (43_temperature.md R176). -/
theorem decodeStep_eq (u : TempUnit) (s : State) :
    decodeStep u s = { s with
      celsius := if signSet (memRead 1 s) then 0 else celsiusField .unset (memRead 0 s) (memRead 1 s)
      result := if signSet (memRead 1 s) then 0
        else resultField u (celsiusField .unset (memRead 0 s) (memRead 1 s)) } := by
  unfold decodeStep
  split <;> rename_i h <;> simp [h, Config.fracPolarity]

/-! ### The frame of the micro-operations -/

/-- `t` differs from `s` at most in what a micro-program can touch. -/
def Moved (s t : State) : Prop :=
  t = { s with
    acc := t.acc, scratch := t.scratch, upc := t.upc, dir := t.dir, out := t.out, dlyCnt := t.dlyCnt,
    events := t.events, lineIn := t.lineIn, draws := t.draws }

theorem Moved.refl (s : State) : Moved s s := rfl

theorem Moved.trans {s t u : State} (h : Moved s t) (k : Moved t u) : Moved s u := by
  unfold Moved at *
  rw [k, h]

theorem cmdWord_of_moved {s t : State} (h : Moved s t) : cmdWord t = cmdWord s := by
  rw [h]
  rfl

theorem runStep_moved (s : State) (m : MicroStep) : Moved s (runStep s m) := by
  obtain ⟨op, c, k⟩ := m
  cases op with
  | read sink =>
    cases h : s.lineIn <;> cases c <;> cases k <;> cases sink <;>
      simp [runStep, finishOp, advance, afterOp, beforeOp, performOp, readOp, oracle, latchSample, memWrite, emit,
        Moved, h]
  | _ => cases c <;> cases k <;> rfl

theorem runSteps_moved (p : List MicroStep) (s : State) : Moved s (runSteps p s) := by
  induction p generalizing s with
  | nil => exact .refl s
  | cons m p ih => exact (runStep_moved s m).trans (ih _)

theorem runStep_upc (s : State) (m : MicroStep) : (runStep s m).upc = s.upc + 1 := by
  obtain ⟨op, c, k⟩ := m
  cases op with
  | read sink =>
    cases h : s.lineIn <;> cases c <;> cases k <;> cases sink <;>
      simp [runStep, finishOp, advance, afterOp, beforeOp, performOp, readOp, oracle, latchSample, memWrite, emit, h]
  | _ => cases c <;> cases k <;> rfl

theorem runSteps_upc (p : List MicroStep) (s : State) :
    (runSteps p s).upc = s.upc + BitVec.ofNat 10 p.length := by
  induction p generalizing s with
  | nil => simp
  | cons m p ih =>
    rw [runSteps_cons, ih, runStep_upc, List.length_cons, BitVec.ofNat_add, BitVec.add_assoc, BitVec.add_comm 1]
    rfl

theorem runStep_dlyCnt {s : State} {m : MicroStep} (h : s.dlyCnt = 0) : (runStep s m).dlyCnt = 0 := by
  obtain ⟨op, c, k⟩ := m
  cases op with
  | read sink =>
    cases hl : s.lineIn <;> cases c <;> cases k <;> cases sink <;>
      simpa [runStep, finishOp, advance, afterOp, beforeOp, performOp, readOp, oracle, latchSample, memWrite, emit,
        hl]
  | delay n => cases c <;> cases k <;> rfl
  | _ => cases c <;> cases k <;> exact h

/-- The direction after a micro-step. -/
theorem runStep_dir (s : State) (m : MicroStep) :
    (runStep s m).dir = match m.op with
      | .setInput => .input
      | .setOutput => .output
      | _ => s.dir := by
  obtain ⟨op, c, k⟩ := m
  cases op with
  | read sink =>
    cases hl : s.lineIn <;> cases c <;> cases k <;> cases sink <;>
      simp [runStep, finishOp, advance, afterOp, beforeOp, performOp, readOp, oracle, latchSample, memWrite, emit, hl]
  | _ => cases c <;> cases k <;> rfl

/-- The latch after a micro-step: only a `Write` moves it. -/
theorem runStep_out (s : State) (m : MicroStep) :
    (runStep s m).out = match m.op with
      | .write l => l
      | _ => s.out := by
  obtain ⟨op, c, k⟩ := m
  cases op with
  | read sink =>
    cases hl : s.lineIn <;> cases c <;> cases k <;> cases sink <;>
      simp [runStep, finishOp, advance, afterOp, beforeOp, performOp, readOp, oracle, latchSample, memWrite, emit, hl]
  | _ => cases c <;> cases k <;> rfl

/-- Each micro-step appends exactly one event (10_state.md R46). -/
theorem runStep_events (s : State) (m : MicroStep) :
    (runStep s m).events = (match m.op with
      | .setInput => .dirIn
      | .setOutput => .dirOut
      | .write l => .drive l
      | .read _ => .sample (oracle s).1
      | .delay n => .wait n) :: s.events := by
  obtain ⟨op, c, k⟩ := m
  cases op with
  | read sink =>
    cases hl : s.lineIn <;> cases c <;> cases k <;> cases sink <;>
      simp [runStep, finishOp, advance, afterOp, beforeOp, performOp, readOp, oracle, latchSample, memWrite, emit, hl,
        State.trace]
  | _ => cases c <;> cases k <;> rfl

/-- The buffer after a micro-step: only a store moves it, to the accumulator of that moment. -/
theorem runStep_scratch (s : State) (m : MicroStep) :
    (runStep s m).scratch = match m.store with
      | none => s.scratch
      | some k => Memory.writeByte s.scratch k.val (runStep s m).acc := by
  obtain ⟨op, c, k⟩ := m
  cases op with
  | read sink =>
    cases hl : s.lineIn <;> cases c <;> cases k <;> cases sink <;>
      simp [runStep, finishOp, advance, afterOp, beforeOp, performOp, readOp, oracle, latchSample, memWrite, emit, hl]
  | _ => cases c <;> cases k <;> rfl

/-! ### Stretches of a micro-program -/

/-- From `s` a stretch of micro-steps that appended the events `es` and took `reads` answers led to `t`. -/
structure Ran (es : List Event) (reads : Nat) (s t : State) : Prop where
  moved : Moved s t
  events : t.events = es.reverse ++ s.events
  lineIn : t.lineIn = s.lineIn.drop reads
  draws : t.draws = s.draws + (reads - s.lineIn.length)
  dlyCnt : s.dlyCnt = 0 → t.dlyCnt = 0

theorem Ran.trans {e1 e2 : List Event} {n1 n2 : Nat} {s t u : State} (h : Ran e1 n1 s t) (k : Ran e2 n2 t u) :
    Ran (e1 ++ e2) (n1 + n2) s u := by
  refine ⟨h.moved.trans k.moved, by simp [k.events, h.events], by simp [k.lineIn, h.lineIn], ?_,
    fun h0 => k.dlyCnt (h.dlyCnt h0)⟩
  rw [k.draws, h.draws, h.lineIn, List.length_drop]
  omega

/-- The answers of two stretches, one after the other. -/
theorem answers_append {s t : State} {l1 l2 : List Level} (h1 : answers s l1)
    (ht : t.lineIn = s.lineIn.drop l1.length) (h2 : answers t l2) : answers s (l1 ++ l2) := by
  intro j l hj hl
  by_cases h : j < l1.length
  · rw [List.getElem?_append_left h]
    exact h1 j l h hl
  · rw [List.getElem?_append_right (by omega)]
    apply h2 (j - l1.length) l
    · rw [List.length_append] at hj
      omega
    · rw [ht, List.getElem?_drop, ← hl]
      congr 1
      omega

/-- What a sink makes of the accumulator. -/
def sinkAcc (sink : Sink) (a : Byte) (l : Level) : Byte :=
  match sink with
  | .whole => levelByte l
  | .bit i => if l = .high then a ||| (1#8 <<< i.val) else a

/-- What a micro-step's store makes of the buffer. -/
def storeByte (k : Option (Fin 9)) (v : Byte) (m : Memory) : Memory :=
  match k with
  | none => m
  | some k => Memory.writeByte m k.val v

/-- A read slot: its events, its one sample, and where the sample goes. -/
theorem run_readSlot (sink : Sink) (c : Bool) (k : Option (Fin 9)) (s : State) :
    ∃ l t, runSteps (readSlot sink c k) s = t ∧ answers s [l] ∧ Ran (readSlotEvents l) 1 s t ∧
      t.dir = .input ∧ t.out = .low ∧ t.acc = sinkAcc sink (if c then 0 else s.acc) l ∧
      t.scratch = storeByte k t.acc s.scratch := by
  cases h : s.lineIn with
  | nil =>
    refine ⟨Config.envLevel ((Event.wait 15 :: .dirIn :: .wait 1 :: .drive .low :: .dirOut :: s.events).reverse)
      s.draws, _, rfl, ?_, ⟨runSteps_moved _ _, ?_, ?_, ?_, ?_⟩, ?_⟩
    · intro j l hj hl
      simp [h] at hl
    all_goals cases c <;> cases k <;> cases sink <;>
      simp [readSlot, plain, runSteps, runStep, beforeOp, performOp, finishOp, afterOp, advance, emit, setInputOp,
        setOutputOp, writeOp, delayOp, readOp, oracle, latchSample, State.trace, h, readSlotEvents, Config.tRInit,
        Config.tRSample, Config.tRRest, memWrite, sinkAcc, storeByte]
  | cons l ls =>
    refine ⟨l, _, rfl, ?_, ⟨runSteps_moved _ _, ?_, ?_, ?_, ?_⟩, ?_⟩
    · intro j l' hj hl
      obtain rfl : j = 0 := by simpa using hj
      simpa [h] using hl
    all_goals cases c <;> cases k <;> cases sink <;>
      simp [readSlot, plain, runSteps, runStep, beforeOp, performOp, finishOp, afterOp, advance, emit, setInputOp,
        setOutputOp, writeOp, delayOp, readOp, oracle, latchSample, h, readSlotEvents, Config.tRInit,
        Config.tRSample, Config.tRRest, memWrite, sinkAcc, storeByte]

/-- A write slot. -/
theorem run_writeSlot (b : Bool) (s : State) :
    ∃ t, runSteps (writeSlot b) s = t ∧ Ran (writeSlotEvents b) 0 s t ∧ t.dir = .input ∧ t.out = .low ∧
      t.acc = s.acc ∧ t.scratch = s.scratch := by
  refine ⟨_, rfl, ⟨runSteps_moved _ _, ?_, ?_, ?_, ?_⟩, ?_⟩
  all_goals cases b <;>
    simp [writeSlot, plain, runSteps, runStep, beforeOp, performOp, finishOp, afterOp, advance, emit, setInputOp,
      setOutputOp, writeOp, delayOp, writeSlotEvents, Config.tW0Low, Config.tW0Rel, Config.tW1Low, Config.tW1Rel]

/-- A bus reset. -/
theorem run_owReset (s : State) :
    ∃ t, runSteps owResetProgram s = t ∧ Ran resetEvents 0 s t ∧ t.dir = .input ∧ t.out = .low ∧
      t.acc = s.acc ∧ t.scratch = s.scratch := by
  refine ⟨_, rfl, ⟨runSteps_moved _ _, ?_, ?_, ?_, ?_⟩, ?_⟩
  all_goals simp [owResetProgram, plain, runSteps, runStep, beforeOp, performOp, finishOp, afterOp, advance, emit,
    setInputOp, setOutputOp, writeOp, delayOp, resetEvents, Config.tResetLow, Config.tResetWait]

/-- A delay on its own. -/
theorem run_delay (n : Nat) (s : State) :
    ∃ t, runSteps [plain (.delay n)] s = t ∧ Ran [.wait n] 0 s t ∧ t.dir = s.dir ∧ t.out = s.out ∧
      t.acc = s.acc ∧ t.scratch = s.scratch := by
  refine ⟨_, rfl, ⟨runSteps_moved _ _, ?_, ?_, ?_, ?_⟩, ?_⟩
  all_goals simp [plain, runSteps, runStep, beforeOp, performOp, finishOp, afterOp, advance, emit, delayOp]

/-- A byte written: eight write slots. -/
theorem run_writeByte (v : Byte) (s : State) :
    ∃ t, runSteps (writeByteProgram v) s = t ∧ Ran (writeByteEvents v) 0 s t ∧ t.dir = .input ∧ t.out = .low ∧
      t.acc = s.acc ∧ t.scratch = s.scratch := by
  have slots : ∀ (ns : List Nat) (s : State), ns ≠ [] →
      ∃ t, runSteps (ns.flatMap fun i => writeSlot (v.getLsbD i)) s = t ∧
        Ran (ns.flatMap fun i => writeSlotEvents (v.getLsbD i)) 0 s t ∧ t.dir = .input ∧ t.out = .low ∧
        t.acc = s.acc ∧ t.scratch = s.scratch := by
    intro ns
    induction ns with
    | nil => intro s h; exact absurd rfl h
    | cons n ns ih =>
      intro s _
      obtain ⟨t, h1, h2, h3, h4, h5, h6⟩ := run_writeSlot (v.getLsbD n) s
      rw [List.flatMap_cons, List.flatMap_cons, runSteps_append, h1]
      by_cases hn : ns = []
      · subst hn
        exact ⟨t, rfl, by simpa using h2, h3, h4, h5, h6⟩
      · obtain ⟨u, k1, k2, k3, k4, k5, k6⟩ := ih t hn
        exact ⟨u, k1, h2.trans k2, k3, k4, k5.trans h5, k6.trans h6⟩
  exact slots (List.range 8) s (by decide)

/-- The accumulator after the read slots of the bits listed. -/
def accOf (a : Byte) : List (Fin 8 × Level) → Byte
  | [] => a
  | (i, l) :: r => accOf (if l = .high then a ||| (1#8 <<< i.val) else a) r

/-- A byte read: eight read slots, the accumulator cleared first, the byte stored at the end where asked. -/
theorem run_readByte (k : Option (Fin 9)) (s : State) :
    ∃ ls t, ls.length = 8 ∧ runSteps (readByteProgram k) s = t ∧ answers s ls ∧
      Ran (ls.flatMap readSlotEvents) 8 s t ∧ t.dir = .input ∧ t.out = .low ∧
      t.acc = accOf 0 (bitOrder.zip ls) ∧ t.scratch = storeByte k t.acc s.scratch := by
  rw [show readByteProgram k = readSlot (.bit 0) true none ++ (readSlot (.bit 1) false none ++
    (readSlot (.bit 2) false none ++ (readSlot (.bit 3) false none ++ (readSlot (.bit 4) false none ++
    (readSlot (.bit 5) false none ++ (readSlot (.bit 6) false none ++ readSlot (.bit 7) false k)))))) from rfl]
  simp only [runSteps_append]
  obtain ⟨l0, t0, e0, a0, r0, -, -, c0, d0⟩ := run_readSlot (.bit 0) true none s
  obtain ⟨l1, t1, e1, a1, r1, -, -, c1, d1⟩ := run_readSlot (.bit 1) false none t0
  obtain ⟨l2, t2, e2, a2, r2, -, -, c2, d2⟩ := run_readSlot (.bit 2) false none t1
  obtain ⟨l3, t3, e3, a3, r3, -, -, c3, d3⟩ := run_readSlot (.bit 3) false none t2
  obtain ⟨l4, t4, e4, a4, r4, -, -, c4, d4⟩ := run_readSlot (.bit 4) false none t3
  obtain ⟨l5, t5, e5, a5, r5, -, -, c5, d5⟩ := run_readSlot (.bit 5) false none t4
  obtain ⟨l6, t6, e6, a6, r6, -, -, c6, d6⟩ := run_readSlot (.bit 6) false none t5
  obtain ⟨l7, t7, e7, a7, r7, x7, y7, c7, d7⟩ := run_readSlot (.bit 7) false k t6
  refine ⟨[l0, l1, l2, l3, l4, l5, l6, l7], t7, rfl, by rw [e0, e1, e2, e3, e4, e5, e6, e7], ?_, ?_, x7, y7, ?_, ?_⟩
  · exact answers_append a0 r0.lineIn (answers_append a1 r1.lineIn (answers_append a2 r2.lineIn
      (answers_append a3 r3.lineIn (answers_append a4 r4.lineIn (answers_append a5 r5.lineIn
      (answers_append a6 r6.lineIn a7))))))
  · simpa using r0.trans (r1.trans (r2.trans (r3.trans (r4.trans (r5.trans (r6.trans r7))))))
  · simp [c7, c6, c5, c4, c3, c2, c1, c0, sinkAcc, accOf, bitOrder]
  · rw [d7, d6, d5, d4, d3, d2, d1, d0]
    rfl

/-! ### The clock of the delays (40_line_and_delay.md R126) -/

/-- `CLK_HZ` is positive and fits 32 bits (92_eei_decisions.md, open parameters). -/
theorem clkHz_bounds : 1 ≤ Config.clkHz ∧ Config.clkHz < 2 ^ 32 := by
  have := Config.clkHzLessOne.isLt
  unfold Config.clkHz
  omega

/-- The count of every delay fits the counter. -/
theorem cycles_lt {n : Nat} (h : n ≤ 65535) : cycles n < 2 ^ 32 := by
  have := clkHz_bounds
  unfold cycles cyclesAt ceilDiv
  have h1 : n * Config.clkHz ≤ 65535 * (2 ^ 32 - 1) := Nat.mul_le_mul h (by omega)
  split <;> omega

/-- The cycles of a delay last at least the microseconds asked for (40_line_and_delay.md R126). -/
theorem cycles_cover (n : Nat) : n * Config.clkHz ≤ cycles n * 1000000 := by
  unfold cycles cyclesAt ceilDiv
  split <;> omega

/-- The same in real time (40_line_and_delay.md R129). -/
theorem le_cycles_time (n : Nat) : (n : ℝ) ≤ (cycles n : ℝ) * 1000000 / Config.clkHz := by
  have hz : (0 : ℝ) < Config.clkHz := by exact_mod_cast clkHz_bounds.1
  rw [le_div_iff₀ hz]
  exact_mod_cast cycles_cover n

/-- A lawful event lasts at least its requested wait (R129, R131). -/
theorem TimedEvent.lawful_waits {t : TimedEvent} (h : t.lawful) : t.start + (Event.waits t.event : ℝ) ≤ t.stop := by
  unfold TimedEvent.lawful at h
  cases he : t.event with
  | wait n =>
    simp only [he] at h
    have := le_cycles_time n
    simp only [Event.waits]
    linarith
  | _ =>
    simp only [he] at h
    simpa [Event.waits] using h.1

end Sys2Proof.Machine
end

