-- ==== Sys2Proof/Laws/Step.lean ====
section
/-! SUPPORT. Everything a step can do, said once; and runs of steps. -/

namespace Sys2Proof.Machine

/-! ### The sequencer's step -/

/-- What a sequencer step does, when the block runs the command `i`. -/
theorem seqStep_of_command {i : Instr} {s : State} (h : decodeWord (cmdWord s) = .ok i) :
    seqStep s = commandStep i s := by
  simp [seqStep, h]

/-- Everything a sequencer step can do. -/
theorem seqStep_cases {s t : State} (h : seqStep s = .next t) :
    ∃ i, decodeWord (cmdWord s) = .ok i ∧
      ((∃ m, (microProgram i)[s.upc.toNat]? = some m ∧ t = microStep m s) ∨
       (s.upc.toNat = (microProgram i).length ∧ t = complete (finalDecode i) s)) := by
  unfold seqStep at h
  split at h
  · rename_i i hi
    refine ⟨i, hi, ?_⟩
    unfold commandStep at h
    split at h
    · rename_i m hm
      exact .inl ⟨m, hm, (Host.Outcome.next.inj h).symm⟩
    · split_ifs at h with hu
      exact .inr ⟨hu, (Host.Outcome.next.inj h).symm⟩
  · exact nomatch h

/-- Everything the sequencer does at a micro-step: perform it whole, or start a delay, or count one cycle of it. -/
theorem microStep_cases (m : MicroStep) (s : State) :
    (microStep m s = runStep s m) ∨
    (∃ n, m.op = .delay n ∧ s.dlyCnt = 0 ∧ delayCount n ≠ 0 ∧ microStep m s = loadDelay n (beforeOp m s)) ∨
    (∃ n, m.op = .delay n ∧ s.dlyCnt ≠ 0 ∧ s.dlyCnt - 1 ≠ 0 ∧ microStep m s = countDelay s) ∨
    (∃ n, m.op = .delay n ∧ s.dlyCnt = 1 ∧ microStep m s = finishOp m { s with dlyCnt := 0 }) := by
  unfold microStep
  split
  · rename_i n hop
    by_cases hd : s.dlyCnt = 0
    · rw [if_pos hd, delayStart]
      have hl : (loadDelay n (beforeOp m s)).dlyCnt = delayCount n := rfl
      by_cases hz : delayCount n = 0
      · rw [if_pos (hl.trans hz)]
        left
        simp [runStep, hop, performOp, delayOp, loadDelay, hz, emit]
      · rw [if_neg (by rw [hl]; exact hz)]
        exact .inr (.inl ⟨n, hop, hd, hz, rfl⟩)
    · rw [if_neg hd, delayCycle]
      have hl : (countDelay s).dlyCnt = s.dlyCnt - 1 := rfl
      by_cases hz : s.dlyCnt - 1 = 0
      · rw [if_pos (hl.trans hz)]
        refine .inr (.inr (.inr ⟨n, hop, by simpa [BitVec.sub_eq_iff_eq_add] using hz, ?_⟩))
        simp only [countDelay, hz]
      · rw [if_neg (by rw [hl]; exact hz)]
        exact .inr (.inr (.inl ⟨n, hop, hd, hz, rfl⟩))
  · exact .inl rfl

/-! ### What the sequencer does not look at -/

/-- `s` with the error flags and the host's side of `o`. -/
def withOutside (s o : State) : State :=
  { s with
    errArg := o.errArg, errCmd := o.errCmd, errBusy := o.errBusy
    host := o.host, hostLog := o.hostLog, hostDraws := o.hostDraws }

theorem microStep_withOutside (m : MicroStep) (s o : State) :
    microStep m (withOutside s o) = withOutside (microStep m s) o := by
  obtain ⟨op, c, k⟩ := m
  cases op with
  | read sink =>
    cases hl : s.lineIn <;> cases c <;> cases k <;> cases sink <;>
      simp [withOutside, microStep, runStep, finishOp, advance, afterOp, beforeOp, performOp, readOp, oracle,
        latchSample, memWrite, emit, hl, State.trace]
  | delay n =>
    simp only [microStep, delayStart, delayCycle, withOutside]
    by_cases h0 : s.dlyCnt = 0#32
    · by_cases hz : delayCount n = 0#32 <;> cases c <;> cases k <;>
        simp [h0, loadDelay, emit, beforeOp, finishOp, afterOp, advance, memWrite, hz]
    · by_cases hz : s.dlyCnt - 1#32 = 0#32 <;> cases c <;> cases k <;>
        simp [h0, countDelay, finishOp, afterOp, advance, memWrite, hz]
  | _ => cases c <;> cases k <;> rfl

theorem complete_withOutside (f : Option TempUnit) (s o : State) :
    complete f (withOutside s o) = withOutside (complete f s) o := by
  cases f with
  | none => rfl
  | some u =>
    simp only [complete, decodeStep_eq]
    rfl

/-! ### A command line -/

/-- Everything a command can do: it is refused as busy, refused as a bad argument, or runs to its completion step. -/
theorem exec_cases (i : Instr) (s : State) :
    (s.busy = true ∧ exec i s = .next { s with errBusy := true }) ∨
    (s.busy = false ∧ i.wellFormed = false ∧ exec i s = .next { s with done := false, errArg := true }) ∨
    (s.busy = false ∧ i.wellFormed = true ∧ exec i s = .next (complete (finalDecode i)
      (runSteps (microProgram i) (accept (encode i) { s with done := false })))) := by
  rcases Bool.eq_false_or_eq_true s.busy with hb | hb
  · exact .inl ⟨hb, exec_busy hb⟩
  · rcases Bool.eq_false_or_eq_true i.wellFormed with hw | hw
    · exact .inr (.inr ⟨hb, hw, exec_idle hw hb⟩)
    · exact .inr (.inl ⟨hb, hw, exec_badArg hw hb⟩)

/-! ### The step -/

theorem step_nil {s : State} (h : s.host = []) : step s = clockStep s := by simp [step, h]

theorem step_cons {s : State} {a : HostAct} {rest : List HostAct} (h : s.host = a :: rest) :
    step s = hostStep a { s with host := rest } := by simp [step, h]

theorem clockStep_busy {s : State} (h : s.busy = true) : clockStep s = seqStep s := by simp [clockStep, h]

theorem clockStep_idle {s : State} (h : s.busy = false) : clockStep s = .next s := by simp [clockStep, h]

/-- Everything a step can do. -/
theorem step_cases {s t : State} (h : step s = .next t) :
    (s.host = [] ∧ clockStep s = .next t) ∨
    ∃ rest,
      (∃ w i, s.host = .command w :: rest ∧ spelled w = some i ∧ exec i { s with host := rest } = .next t) ∨
      (∃ w, s.host = .command w :: rest ∧ spelled w = none ∧ t = hostWrite 0x00 w { s with host := rest }) ∨
      (∃ idx w, s.host = .write idx w :: rest ∧ t = hostWrite idx w { s with host := rest }) ∨
      (∃ idx, s.host = .read idx :: rest ∧ t = hostReadStep idx { s with host := rest }) ∨
      (s.host = .tick :: rest ∧ clockStep { s with host := rest } = .next t) ∨
      (s.host = .rst :: rest ∧ t = resetEdge { s with host := rest }) := by
  cases hh : s.host with
  | nil => exact .inl ⟨rfl, by rwa [step_nil hh] at h⟩
  | cons a rest =>
    refine .inr ⟨rest, ?_⟩
    rw [step_cons hh] at h
    cases a with
    | command w =>
      simp only [hostStep] at h
      cases hs : spelled w with
      | some i =>
        rw [hs] at h
        exact .inl ⟨w, i, rfl, hs, h⟩
      | none =>
        rw [hs] at h
        exact .inr (.inl ⟨w, rfl, hs, (Host.Outcome.next.inj h).symm⟩)
    | write idx w => exact .inr (.inr (.inl ⟨idx, w, rfl, (Host.Outcome.next.inj h).symm⟩))
    | read idx => exact .inr (.inr (.inr (.inl ⟨idx, rfl, (Host.Outcome.next.inj h).symm⟩)))
    | tick => exact .inr (.inr (.inr (.inr (.inl ⟨rfl, h⟩))))
    | rst => exact .inr (.inr (.inr (.inr (.inr ⟨rfl, (Host.Outcome.next.inj h).symm⟩))))

/-! ### Runs -/

theorem run_of_next (M : Host.Core) (k : Nat) {s t : M.State} (h : M.step s = .next t) :
    M.run (k + 1) s = M.run k t := by
  simp only [Host.Core.run, h]

theorem run_of_fault (M : Host.Core) (k : Nat) {s : M.State} {r : M.Fault} (h : M.step s = .fault r) :
    M.run (k + 1) s = .fault r := by
  simp only [Host.Core.run, h]

theorem run_of_refused (M : Host.Core) (k : Nat) {s : M.State} {r : M.Refusal} (h : M.step s = .refused r) :
    M.run (k + 1) s = .refused r := by
  simp only [Host.Core.run, h]

/-- A run in two parts. -/
theorem run_add (M : Host.Core) (a b : Nat) {s t : M.State} (h : M.run a s = .next t) :
    M.run (a + b) s = M.run b t := by
  induction a generalizing s with
  | zero =>
    cases h
    rw [Nat.zero_add]
  | succ a ih =>
    cases hs : M.step s with
    | next u =>
      rw [run_of_next M a hs] at h
      rw [Nat.add_right_comm, run_of_next M _ hs]
      exact ih h
    | fault r =>
      rw [run_of_fault M a hs] at h
      cases h
    | refused r =>
      rw [run_of_refused M a hs] at h
      cases h

end Sys2Proof.Machine
end

