-- ==== Sys2Proof/Tests/Slice0.lean ====
section
/-! SUPPORT. Tests: expected values are those of spec/95_test_vectors.md (its V-numbers are named) or written out
from the encodings of spec/30_encoding.md. Then, for every statement with hypotheses, a state that meets them. -/

namespace Sys2Proof.Tests

open Sys2Proof Sys2Proof.Machine

/-- The next state, if there is one. -/
def nextOf (o : Host.Outcome State Fault Refusal) : Option State :=
  match o with
  | .next t => some t
  | .fault _ => none
  | .refused _ => none

/-- A value seen in the next state. -/
def seen {α : Type} (f : State → α) (i : Instr) (s : State) : Option α := (nextOf (exec i s)).map f

/-- The reset state with the environment's answers given (20_memory.md R72). -/
def withLine (ls : List Level) : State := { State.reset with lineIn := ls }

/-- `E_HIGH` and `E_LOW` for one GET_TEMP. -/
def stuckAt (l : Level) : State := withLine (List.replicate 72 l)

/-- The reset state with bytes 0 and 1 of the buffer loaded by the host. -/
def loaded (lsb msb : Byte) : State := memWrite 1 msb (memWrite 0 lsb State.reset)

/-! ### Decode -/

theorem test_decode_line :
    decodeWord 0x01000000 = .ok .setInput ∧ decodeWord 0x02000000 = .ok .setOutput ∧
    decodeWord 0x03000001 = .ok (.writeLevel .high) ∧ decodeWord 0x04000000 = .ok .readLevel ∧
    decodeWord 0x050002EE = .ok (.delay 750) := by decide

theorem test_decode_bits :
    decodeWord 0x10000000 = .ok .owReset ∧ decodeWord 0x11000001 = .ok (.owWriteBit true) ∧
    decodeWord 0x12000000 = .ok .owReadBit := by decide

theorem test_decode_bytes :
    decodeWord 0x130000CC = .ok (.owWriteByte 0xCC) ∧ decodeWord 0x14000000 = .ok .owReadByte := by decide

theorem test_decode_temperature :
    decodeWord 0x20000043 = .ok (.getTemp 0x43) ∧ decodeWord 0x21000066 = .ok (.decode 0x66) := by decide

/-- V50 to V56, and a spelled word at the host's port. -/
theorem test_decode_refused :
    decodeWord 0x2000004B = .badArg (.getTemp 0x4B) ∧ decodeWord 0x00000000 = .illegal .unassignedOpcode ∧
    decodeWord 0x10000001 = .illegal .operandBits ∧ decodeWord 0x2001004B = .illegal .reservedBits ∧
    decodeWord 0x20000143 = .illegal .operandBits ∧ decodeWord 0x03000002 = .illegal .operandBits ∧
    decodeWord 0x21000000 = .badArg (.decode 0) ∧ decodeTableWord 32 0x20000000 = some (.getTemp 0) ∧
    decodeTableWord 32 0x22000000 = none := by decide

theorem test_encode :
    encode (.writeLevel .high) = 0x03000001 ∧ encode (.delay 65535) = 0x0500FFFF ∧
    encode (.owWriteByte 0xA5) = 0x130000A5 ∧ encode (.getTemp 0x46) = 0x20000046 := by decide

/-- The one check of WellFormed: a character that is no unit is refused (R101). -/
theorem test_illformed :
    (Instr.getTemp 0x4B).wellFormed = false ∧ (Instr.decode 0x00).wellFormed = false ∧
    (Instr.getTemp 0x63).wellFormed = true ∧ (Instr.decode 0x46).wellFormed = true := by decide

/-! ### Layer 0 -/

/-- V22: the latch is kept. -/
theorem test_setInput :
    seen (fun t => (t.dir, t.out, t.trace)) .setInput { State.reset with dir := .output, out := .high } =
      some (.input, .high, [.dirIn]) := by decide

/-- V19. -/
theorem test_setOutput :
    seen (fun t => (t.dir, t.out, t.trace, statusWord t, cmdWord t)) .setOutput State.reset =
      some (.output, .low, [.dirOut], 0x2, 0x02000000) := by decide

/-- V20. -/
theorem test_writeLevel_output :
    seen (fun t => (t.dir, t.out, t.trace)) (.writeLevel .high) { State.reset with dir := .output } =
      some (.output, .high, [.drive .high]) := by decide

/-- V21: the line is not driven. -/
theorem test_writeLevel_input :
    seen (fun t => (owOe t, t.out, t.trace)) (.writeLevel .high) State.reset =
      some (false, .high, [.drive .high]) := by decide

/-- V23. -/
theorem test_readLevel_high :
    seen (fun t => (t.acc, hostRead 0x02 t, t.trace)) .readLevel (withLine [.high]) =
      some (0x01, 0x00000001, [.sample .high]) := by decide

/-- V24. -/
theorem test_readLevel_low :
    seen (fun t => t.acc) .readLevel { withLine [.low] with acc := 0xFF } = some 0x00 := by decide

/-- V26. -/
theorem test_delay_zero :
    seen (fun t => (t.trace, t.dlyCnt, statusWord t)) (.delay 0) State.reset = some ([.wait 0], 0, 0x2) := by decide

/-- V28. -/
theorem test_delay_longest : seen State.trace (.delay 0xFFFF) State.reset = some [.wait 65535] := by decide

/-- V29, rows of the table. -/
theorem test_cycles :
    [0, 1, 15, 44, 59, 60, 480, 750, 65535].map (cyclesAt 1500000) = [0, 2, 23, 66, 89, 90, 720, 1125, 98303] ∧
    [0, 1, 15, 44, 59, 60, 480, 750, 65535].map (cyclesAt 999999) = [0, 1, 15, 44, 59, 60, 480, 750, 65535] ∧
    [0, 1, 15, 44, 59, 60, 480, 750, 65535].map (cyclesAt 32768) = [0, 1, 1, 2, 2, 2, 16, 25, 2148] ∧
    [0, 1, 65535].map (cyclesAt 1) = [0, 1, 1] ∧ cyclesAt 12345678 65535 = 809075 := by decide

/-! ### Layer 1 -/

/-- V35: from a High output. -/
theorem test_owReset :
    seen (fun t => (t.dir, t.out, t.trace)) .owReset { State.reset with dir := .output, out := .high } =
      some (.input, .low, [.dirOut, .drive .low, .wait 480, .dirIn, .wait 480]) := by decide

/-- V31, V32. -/
theorem test_owWriteBit :
    seen State.trace (.owWriteBit true) State.reset = some [.dirOut, .drive .low, .wait 1, .dirIn, .wait 59] ∧
    seen State.trace (.owWriteBit false) State.reset = some [.dirOut, .drive .low, .wait 59, .dirIn, .wait 1] := by
  decide

/-- V33. -/
theorem test_owReadBit_one :
    seen (fun t => (t.acc, t.trace)) .owReadBit (withLine [.high]) =
      some (0x01, [.dirOut, .drive .low, .wait 1, .dirIn, .wait 15, .sample .high, .wait 44]) := by decide

/-- V34. -/
theorem test_owReadBit_zero :
    seen (fun t => t.acc) .owReadBit { withLine [.low] with acc := 0xFF } = some 0x00 := by decide

/-- V38: the waits of byte 0x44, bit 0 first. -/
theorem test_owWriteByte :
    seen (fun t => t.trace.filter Event.isWait) (.owWriteByte 0x44) State.reset =
      some ([59, 1, 59, 1, 1, 59, 59, 1, 59, 1, 59, 1, 1, 59, 59, 1].map .wait) := by decide

/-- V37, V38, V39, V40, V41: how long the line is held Low. -/
theorem test_owWriteByte_lowTime :
    [0xCC, 0x44, 0xBE, 0x00, 0xFF].map (fun v : Byte => lowTime .input .low (writeByteEvents v)) =
      [240, 356, 124, 472, 8] := by decide

/-- V44: the first bit received is bit 0, and the accumulator is cleared first. -/
theorem test_owReadByte_first :
    seen (fun t => t.acc) .owReadByte
      { withLine [.high, .low, .low, .low, .low, .low, .low, .low] with acc := 0xFF } = some 0x01 := by decide

/-- V36: 0xA5 read back. -/
theorem test_owReadByte_A5 :
    seen (fun t => (t.acc, t.trace.length)) .owReadByte
      (withLine [.high, .low, .high, .low, .low, .high, .low, .high]) = some (0xA5, 56) := by decide

/-! ### Layer 2 -/

/-- V48: the unit F on the pad `[0x91, 0x01, 0, ...]`. -/
theorem test_getTemp_pad :
    seen (fun t => (memRead 0 t, memRead 1 t, t.acc, t.celsius, t.result)) (.getTemp 0x46)
      (withLine (padLevels [0x91, 0x01, 0, 0, 0, 0, 0, 0, 0])) = some (0x91, 0x01, 0x00, 414, 6286) := by
  decide +kernel

/-- V46, V47: an empty bus and a line stuck Low. -/
theorem test_getTemp_stuck :
    seen (fun t => (memRead 8 t, t.celsius, t.result, statusWord t)) (.getTemp 0x43) (stuckAt .high) =
      some (0xFF, 0, 0, 0x2) ∧
    seen (fun t => (memRead 8 t, t.celsius, t.result, statusWord t)) (.getTemp 0x43) (stuckAt .low) =
      some (0x00, 15, 75, 0x2) := by decide +kernel

/-- V2. -/
theorem test_decode_F :
    seen (fun t => (t.celsius, t.result, t.trace)) (.decode 0x46) (loaded 0x50 0x05) = some (1375, 14935, []) := by
  decide

/-- V6, V9: the sign case is 0 in Fahrenheit too, and is not the true zero. -/
theorem test_decode_sign :
    seen (fun t => (t.celsius, t.result)) (.decode 0x46) { loaded 0xFF 0x08 with result := 7 } = some (0, 0) ∧
    seen (fun t => (t.celsius, t.result)) (.decode 0x46) (loaded 0x0F 0x00) = some (0, 2560) := by decide

/-- V1, V3, V8, V10, V12, V13, V14, V17 of the decoder. -/
theorem test_decoder_table :
    [(0x50, 0x05), (0x91, 0x01), (0x00, 0x00), (0xF0, 0x07), (0x50, 0xF5), (0x9F, 0x01), (0x90, 0x01),
        (0xFF, 0x07)].map (fun x : Byte × Byte => (celsiusField Config.fracPolarity x.1 x.2).toNat) =
      [1375, 414, 15, 2047, 1375, 400, 415, 2032] ∧
    resultField .celsius 1375 = 6875 ∧ resultField .fahrenheit 2047 = 20983 ∧ resultField .celsius 414 = 2070 ∧
    resultField .fahrenheit 2032 = 20848 := by decide

/-- The other polarity, which is not this hardware's. -/
theorem test_fraction_polarity :
    celsiusField .set 0x50 0x05 = 1360 ∧ celsiusField .set 0x91 0x01 = 401 ∧
    Config.fracPolarity = .unset := by decide

/-! ### Refusals, the host port, reset -/

/-- V50, V57: DONE is cleared, CMD and the trace are as before. -/
theorem test_badUnit :
    (nextOf (step (State.reset.withFetchWord 32 0x2000004B))).map (fun t => (statusWord t, cmdWord t, t.trace)) =
      some (0x4, 0, []) ∧
    statusWord (hostWrite 0x00 0x2000004B { State.reset with cmdOp := 0x10, done := true }) = 0x4 := by decide

/-- V58, V59: OW_RESET running, a second command and a scratchpad write dropped. -/
theorem test_busyWrite :
    statusWord (hostWrite 0x00 0x14000000 (hostWrite 0x00 0x10000000 State.reset)) = 0x11 ∧
    cmdWord (hostWrite 0x00 0x14000000 (hostWrite 0x00 0x10000000 State.reset)) = 0x10000000 ∧
    memRead 0 (hostWrite 0x10 0x50 (hostWrite 0x00 0x10000000 State.reset)) = 0 := by decide

/-- V61, V62: write 1 to clear. -/
theorem test_status_clear :
    statusWord (hostWrite 0x01 0x0000000C
      { State.reset with done := true, errArg := true, errCmd := true, errBusy := true }) = 0x12 ∧
    statusWord (hostWrite 0x01 0x00000003 { State.reset with done := true, errArg := true }) = 0x6 := by decide

/-- V64, V65. -/
theorem test_registers :
    hostRead 0x13 (hostWrite 0x13 0x12345678 State.reset) = 0x78 ∧
    (hostWrite 0x13 0x12345678 State.reset).scratch = [(3, 0x78)] ∧
    hostWrite 0x02 0xFF State.reset = State.reset ∧ hostWrite 0x05 1 State.reset = State.reset ∧
    hostRead 0x1F State.reset = 0 := by decide

/-- V67: a reset inside a command. -/
theorem test_reset_edge :
    resetEdge { State.reset with busy := true, cmdOp := 0x20, cmdArg := 0x43, upc := 300, scratch := [(0, 0x91)] } =
      State.reset := by decide

/-- A bare write starts the sequencer, which performs one micro-operation in a step (10_state.md R26). -/
theorem test_sequencer_step :
    (nextOf (seqStep (hostWrite 0x00 0x10000000 State.reset))).map (fun t => (t.busy, t.upc, t.trace, t.dir)) =
      some (true, 1, [.dirOut], .output) := by decide

/-! ### Witnesses: a state and operands for the hypotheses of each statement -/

/-- OW_RESET just accepted. -/
def running : State := hostWrite 0x00 0x10000000 State.reset

/-- A DELAY 1 just accepted. -/
def waiting : State := hostWrite 0x00 0x05000001 State.reset

/-- The reset state with one action of the host to come. -/
def asked (a : HostAct) : State := { State.reset with host := [a] }

theorem running_busy : running.busy = true := by decide

theorem reset_idle : Idle State.reset := ⟨rfl, rfl⟩

/-- A well-formed command on the reset state completes. -/
theorem completes {i : Instr} (h : i.wellFormed = true) : ∃ t, exec i State.reset = .next t := ⟨_, exec_idle h rfl⟩

theorem running_invariant : Invariant running where
  busyNotDone _ := rfl
  idleNoDelay _ := rfl
  upcBound := by decide
  resultBound := by decide
  scratchWf := by decide
  command _ := ⟨.owReset, by decide, by decide⟩
  delaying h := absurd rfl h
  line i hi := by
    have h : decodeWord (cmdWord running) = .ok .owReset := by decide
    obtain rfl : Instr.owReset = i := by
      rw [h] at hi
      exact Decoded.ok.inj hi
    decide

theorem witness_ResetEdgeRestoresEveryField : (asked .rst).host = .rst :: [] := rfl

theorem witness_EveryStepKeepsTheInvariant : Invariant running ∧ ∃ t, step running = .next t :=
  ⟨running_invariant, _, rfl⟩

theorem witness_NoStepFaultsUnderTheInvariant : Invariant running := running_invariant

/-- A run of one command line, and the states of each clause: busy after a bare write, and a one-wire command done. -/
theorem witness_ReachableStatesMeetTheStateRules :
    (∃ s, Sys2Proof.core.run 1 (asked (.write 0x00 0x10000000)) = .next s ∧ s.busy = true) ∧
    (∃ s, Sys2Proof.core.run 1 (asked (.command 0x10000000)) = .next s ∧ s.busy = false ∧
      decodeWord (cmdWord s) = .ok .owReset ∧ isOneWire .owReset = true) :=
  ⟨⟨_, rfl, rfl⟩, ⟨_, rfl, rfl, by decide, rfl⟩⟩

theorem witness_EncodeOfDecodeIsTheWord :
    decodeWord 0x0500FFFF = .ok (.delay 0xFFFF) ∧ decodeWord 0x200000FF = .badArg (.getTemp 0xFF) := by decide

theorem witness_IllegalWordsMatchNoRow :
    spelled 0x0300_0001 = some (.writeLevel .high) ∧ opRow (.writeLevel .high) ∈ opcodeTable := by decide

theorem witness_StepRunsTheSpelledCommand :
    (asked (.command 0x10000000)).host = .command 0x10000000 :: [] ∧ spelled 0x10000000 = some .owReset ∧
    (asked (.command 0x10000001)).host = .command 0x10000001 :: [] ∧ spelled 0x10000001 = none := by decide

/-- The operands refused, at the edges of their ranges, for the statements of the twelve commands. -/
theorem witness_operands_refused :
    (1 : BitVec 16) ≠ 0 ∧ (0x8000 : BitVec 16) ≠ 0 ∧ 2 ≤ (2 : BitVec 16).toNat ∧ 2 ≤ (0xFFFF : BitVec 16).toNat ∧
    256 ≤ (0x0100 : BitVec 16).toNat ∧ 256 ≤ (0xFFFF : BitVec 16).toNat := by decide

theorem witness_SetInputReleasesTheLine : running.busy = true ∧ Idle State.reset := ⟨running_busy, reset_idle⟩

theorem witness_SetOutputDrivesTheLatchedLevel : running.busy = true ∧ Idle State.reset := ⟨running_busy, reset_idle⟩

/-- With the pin an input, and with it an output. -/
theorem witness_WriteLevelUpdatesTheLatchOnce :
    running.busy = true ∧ (Idle State.reset ∧ State.reset.dir = .input) ∧
    (Idle { State.reset with dir := .output } ∧ ({ State.reset with dir := .output } : State).dir = .output) ∧
    (∀ l, Instr.setInput ≠ .writeLevel l) :=
  ⟨running_busy, ⟨reset_idle, rfl⟩, ⟨⟨rfl, rfl⟩, rfl⟩, nofun⟩

theorem witness_ReadLevelReturnsTheAnswer : running.busy = true ∧ Idle (withLine [.high]) ∧ Idle (withLine []) :=
  ⟨running_busy, ⟨rfl, rfl⟩, ⟨rfl, rfl⟩⟩

theorem witness_DelayWaitsAndChangesNothing : running.busy = true ∧ Idle State.reset := ⟨running_busy, reset_idle⟩

/-- `n` at both ends of its range, and a clock of whole megahertz. -/
theorem witness_CyclesIsTheRoundedUpQuotient : 0 ≤ 65535 ∧ 65535 ≤ 65535 ∧ 1000000 ∣ 48000000 := by decide

/-- The four clauses: a count to load, none to load, a count above one, a count of one. -/
theorem witness_DelayIsCountedByTheSequencer :
    decodeWord (cmdWord waiting) = .ok (.delay 1) ∧
    (microProgram (.delay 1))[waiting.upc.toNat]? = some (plain (.delay 1)) ∧
    (waiting.dlyCnt = 0 ∧ cycles 1 ≠ 0) ∧
    (decodeWord (cmdWord (hostWrite 0x00 0x05000000 State.reset)) = .ok (.delay 0) ∧ cycles 0 = 0) ∧
    1 < ({ waiting with dlyCnt := 2 } : State).dlyCnt.toNat ∧ ({ waiting with dlyCnt := 1 } : State).dlyCnt = 1 := by
  refine ⟨by decide, rfl, ⟨rfl, ?_⟩, ⟨by decide, by simp [cycles, cyclesAt, ceilDiv]⟩, by decide, rfl⟩
  have := clkHz_bounds
  unfold cycles cyclesAt ceilDiv
  split <;> omega

theorem commandTicks_pos (i : Instr) : 0 < commandTicks i := Nat.succ_pos _

theorem witness_SequencerEndsWhereTheCommandEnds :
    (Instr.getTemp 0x43).wellFormed = true ∧ Idle State.reset ∧ 0 < commandTicks (.getTemp 0x43) :=
  ⟨by decide, reset_idle, commandTicks_pos _⟩

theorem witness_OwResetRunsTheResetWindow : running.busy = true ∧ Idle State.reset := ⟨running_busy, reset_idle⟩

theorem witness_OwWriteBitRunsOneWriteSlot : running.busy = true ∧ Idle State.reset := ⟨running_busy, reset_idle⟩

theorem witness_OwReadBitRunsOneReadSlot : running.busy = true ∧ Idle (withLine [.high]) :=
  ⟨running_busy, ⟨rfl, rfl⟩⟩

theorem witness_OwWriteByteSendsBitZeroFirst : running.busy = true ∧ Idle State.reset := ⟨running_busy, reset_idle⟩

theorem witness_WriteByteLowTimeCountsTheOnes :
    Idle State.reset ∧ ∃ t, exec (.owWriteByte 0xA5) State.reset = .next t := ⟨reset_idle, completes rfl⟩

theorem witness_OwReadByteAssemblesEightSamples : running.busy = true ∧ Idle (withLine [.high]) :=
  ⟨running_busy, ⟨rfl, rfl⟩⟩

theorem witness_ReadByteIsTheSumOfShiftedBits :
    Idle (stuckAt .high) ∧ (List.replicate 8 Level.high).length = 8 ∧
    (stuckAt .high).lineIn = List.replicate 8 .high ++ List.replicate 64 .high ∧
    ∃ t, exec .owReadByte (stuckAt .high) = .next t :=
  ⟨⟨rfl, rfl⟩, rfl, rfl, _, exec_idle rfl rfl⟩

theorem witness_LoopbackReturnsTheByteWritten : Idle State.reset ∧ State.reset.events = [] := ⟨reset_idle, rfl⟩

theorem witness_GetTempRunsTheReadSequence :
    unitOf 0x66 = some .fahrenheit ∧ Idle State.reset ∧ Memory.wf State.reset.scratch :=
  ⟨by decide, reset_idle, by decide⟩

theorem witness_GetTempTotals :
    (unitOf 0x43).isSome = true ∧ Idle State.reset ∧ Memory.wf State.reset.scratch ∧
    ∃ t, exec (.getTemp 0x43) State.reset = .next t := ⟨by decide, reset_idle, by decide, completes (by decide)⟩

/-- A reading with the sign indicator clear and one with it set, in both units. -/
theorem witness_DecodeComputesTheReading :
    unitOf 0x43 = some .celsius ∧ unitOf 0x46 = some .fahrenheit ∧
    (Idle (loaded 0x50 0x05) ∧ (memRead 1 (loaded 0x50 0x05)).getLsbD 3 = false) ∧
    (Idle (loaded 0xFF 0x08) ∧ (memRead 1 (loaded 0xFF 0x08)).getLsbD 3 = true) :=
  ⟨by decide, by decide, ⟨⟨rfl, rfl⟩, by decide⟩, ⟨⟨rfl, rfl⟩, by decide⟩⟩

theorem witness_SignIndicatorReadsZero :
    (memRead 1 (loaded 0xFF 0x08)).getLsbD 3 = true ∧
    memRead 0 (loaded 0x0F 0xF0) = 0x0F ∧ (memRead 1 (loaded 0x0F 0xF0)).extractLsb' 0 4 = 0 := by decide

theorem witness_CelsiusResultIsExact : (memRead 1 (loaded 0x50 0x05)).getLsbD 3 = false := by decide

theorem witness_FahrenheitResultIsExact : (memRead 1 (loaded 0xF0 0x07)).getLsbD 3 = false := by decide

theorem witness_DecoderNeverOverflowsAndIgnoresTheRest :
    memRead 0 (loaded 0x50 0x05) = memRead 0 (loaded 0x50 0xF5) ∧
    (memRead 1 (loaded 0x50 0x05)).extractLsb' 0 4 = (memRead 1 (loaded 0x50 0xF5)).extractLsb' 0 4 := by decide

theorem witness_FractionRunsBackwards :
    (0x90 : Byte).toNat / 16 = (0x9F : Byte).toNat / 16 ∧ (0x90 : Byte).toNat % 16 < (0x9F : Byte).toNat % 16 := by
  decide

theorem witness_BadUnitRaisesInvalidArgument :
    (0x4B : Byte) ∉ [(0x43 : Byte), 0x63, 0x46, 0x66] ∧ State.reset.busy = false := by decide

theorem witness_IllegalWordRaisesIllegalCommand :
    decodeWord 0x10000001 = .illegal .operandBits ∧ State.reset.busy = false := by decide

theorem witness_BusyWriteIsDroppedAndFlagged :
    running.busy = true ∧ (0x00 : BitVec 5) ≠ 0x01 ∧ (0x1F : BitVec 5) ≠ 0x01 ∧ ∃ t, seqStep running = .next t :=
  ⟨running_busy, by decide, by decide, _, rfl⟩

theorem witness_RefusalPriority :
    running.busy = true ∧ State.reset.busy = false ∧ decodeWord 0 = .illegal .unassignedOpcode ∧
    decodeWord 0x2000004B = .badArg (.getTemp 0x4B) ∧ decodeWord 0x10000000 = .ok .owReset := by decide

theorem witness_CmdWriteIsAcceptedOrRefused : State.reset.busy = false := rfl

/-- A flag set, and a step of each kind: one that keeps it, the STATUS write, the reset edge. -/
theorem witness_ErrorFlagsAreSticky :
    causeFlag .illegalCommand { State.reset with errCmd := true } = true ∧
    (∃ t, step { State.reset with errCmd := true } = .next t) ∧
    (∃ t, step { asked (.write 0x01 0x8) with errCmd := true } = .next t ∧ t.errCmd = false) ∧
    ∃ t, step { asked .rst with errCmd := true } = .next t ∧ t.errCmd = false :=
  ⟨rfl, ⟨_, rfl⟩, ⟨_, rfl, rfl⟩, ⟨_, rfl, rfl⟩⟩

/-- By the sequencer's completion step, and by a command line. -/
theorem witness_DoneIsSetByCompletionOnly :
    (∃ t, step { running with upc := 5 } = .next t ∧ running.done = false ∧ t.done = true) ∧
    ∃ t, step (asked (.command 0x10000000)) = .next t ∧ State.reset.done = false ∧ t.done = true :=
  ⟨⟨_, rfl, rfl, rfl⟩, ⟨_, rfl, rfl, rfl⟩⟩

/-- Every clause at the ends of its range of indices. -/
theorem witness_HostWriteFollowsItsRule :
    (asked (.write 0x10 0x50)).host = .write 0x10 0x50 :: [] ∧
    running.busy = true ∧ State.reset.busy = false ∧ (0x00 : BitVec 5) ≠ 0x01 ∧
    (0x10 : BitVec 5).toNat = 16 + (0 : Fin 9).val ∧ (0x18 : BitVec 5).toNat = 16 + (8 : Fin 9).val ∧
    2 ≤ (0x02 : BitVec 5).toNat ∧ (0x0F : BitVec 5).toNat ≤ 15 ∧ 25 ≤ (0x19 : BitVec 5).toNat ∧
    25 ≤ (0x1F : BitVec 5).toNat := by decide

theorem witness_HostReadFollowsTheRegisterMap :
    State.reset.busy = false ∧ (0x10 : BitVec 5).toNat = 16 + (0 : Fin 9).val ∧
    (0x18 : BitVec 5).toNat = 16 + (8 : Fin 9).val ∧ 5 ≤ (0x05 : BitVec 5).toNat ∧ (0x0F : BitVec 5).toNat ≤ 15 ∧
    25 ≤ (0x19 : BitVec 5).toNat := by decide

theorem witness_BusyReadsRevealNothing :
    running.busy = true ∧ ({ running with acc := 7 } : State).busy = true ∧
    running.hostDraws = ({ running with acc := 7 } : State).hostDraws ∧ 2 ≤ (0x02 : BitVec 5).toNat ∧
    (0x04 : BitVec 5).toNat ≤ 4 ∧ 16 ≤ (0x10 : BitVec 5).toNat ∧ (0x18 : BitVec 5).toNat ≤ 24 := by decide

theorem witness_HostReadChangesNoState : (asked (.read 0x02)).host = .read 0x02 :: [] := rfl

theorem witness_ScratchWriteThenRead : State.reset.busy = false ∧ Memory.wf State.reset.scratch := by decide

/-- A bare write, a read, and a command line, while OW_RESET runs. -/
theorem witness_HostCannotAlterARunningCommand :
    running.busy = true ∧ (∃ u, seqStep running = .next u) ∧
    (∃ t, hostStep (.write 0x10 0x50) running = .next t) ∧ (∃ t, hostStep (.read 0x02) running = .next t) ∧
    ∃ t, hostStep (.command 0x14000000) running = .next t :=
  ⟨running_busy, ⟨_, rfl⟩, ⟨_, rfl⟩, ⟨_, rfl⟩, ⟨_, rfl⟩⟩

/-- For each clause of the frame a command it speaks of. -/
theorem witness_CommandsWriteOnlyTheirRegisters :
    Idle State.reset ∧ (∃ t, exec (.owWriteByte 0xA5) State.reset = .next t) ∧
    (∀ v, Instr.owWriteByte 0xA5 ≠ .getTemp v) ∧ (∀ v, Instr.owWriteByte 0xA5 ≠ .decode v) ∧
    (∃ t, exec (.delay 1) State.reset = .next t) ∧ isOneWire (.delay 1) = false ∧
    (∀ l, Instr.delay 1 ≠ .writeLevel l) ∧ Instr.delay 1 ≠ .setInput ∧ Instr.delay 1 ≠ .setOutput :=
  ⟨reset_idle, completes rfl, nofun, nofun, completes rfl, rfl, nofun, nofun, nofun⟩

theorem witness_MicroProgramLengths :
    (Instr.getTemp 0x43).wellFormed = true ∧ State.reset.busy = false ∧
    ∃ t, exec (.getTemp 0x43) State.reset = .next t := ⟨by decide, rfl, completes (by decide)⟩

theorem witness_OneWireSamplesAreTakenReleased :
    isOneWire .owReadByte = true ∧ Idle State.reset ∧ ∃ t, exec .owReadByte State.reset = .next t :=
  ⟨rfl, reset_idle, completes rfl⟩

theorem witness_AnswersChangeNoOperation :
    (stuckAt .high).busy = (stuckAt .low).busy ∧ (∃ t, exec .owReadByte (stuckAt .high) = .next t) ∧
    ∃ t, exec .owReadByte (stuckAt .low) = .next t :=
  ⟨rfl, ⟨_, exec_idle rfl rfl⟩, ⟨_, exec_idle rfl rfl⟩⟩

/-- V49: the reset state beside a dirty one with the same line and environment. -/
theorem witness_ResultsDoNotDependOnStaleData :
    let s := State.reset
    let s' := { State.reset with acc := 0x55, celsius := 2047, result := 10235, scratch := [(2, 0xAA)] }
    Idle s ∧ Idle s' ∧ s.events = s'.events ∧ s.lineIn = s'.lineIn ∧ s.draws = s'.draws ∧
    Memory.wf s.scratch ∧ Memory.wf s'.scratch ∧ (unitOf 0x43).isSome = true ∧ memRead 0 s = memRead 0 s' ∧
    memRead 1 s = memRead 1 s' :=
  ⟨⟨rfl, rfl⟩, ⟨rfl, rfl⟩, rfl, rfl, rfl, by decide, by decide, by decide, by decide, by decide⟩

theorem witness_CommandsEqualTheirExpansions :
    (Instr.getTemp 0x43).wellFormed = true ∧ Idle State.reset ∧ Memory.wf State.reset.scratch :=
  ⟨by decide, reset_idle, by decide⟩

/-- OW_RESET's events, each in the least time it may take: a wait between two line operations. -/
theorem witness_RealTimeIsAtLeastNominal :
    let c : ℝ := (cycles 480 : ℝ) * 1000000 / Config.clkHz
    let before : TimedEvent := ⟨.drive .low, 0, 0⟩
    let wait : TimedEvent := ⟨.wait 480, 0, c⟩
    let after : TimedEvent := ⟨.dirIn, c, c⟩
    let ts := [⟨.dirOut, 0, 0⟩] ++ before :: wait :: after :: [⟨.wait 480, c, c + c⟩]
    Instr.owReset.wellFormed = true ∧ State.reset.busy = false ∧
    (∃ t, exec .owReset State.reset = .next t ∧ t.trace = State.reset.trace ++ ts.map TimedEvent.event) ∧
    TimedRun ts ∧ ts.head? = some ⟨.dirOut, 0, 0⟩ ∧ ts.getLast? = some ⟨.wait 480, c, c + c⟩ := by
  have h := Config.tOvh.coe_nonneg
  have hc : (0 : ℝ) ≤ (cycles 480 : ℝ) * 1000000 / Config.clkHz := by positivity
  refine ⟨rfl, rfl, ⟨_, exec_idle rfl rfl, rfl⟩, ⟨?_, ?_⟩, rfl, rfl⟩
  · intro t ht
    simp only [List.cons_append, List.nil_append, List.mem_cons, List.not_mem_nil, or_false] at ht
    rcases ht with rfl | rfl | rfl | rfl | rfl <;> simp [TimedEvent.lawful]
  · simp [hc]

/-- A run of one event: DELAY 0 at the end of its range that asks for nothing. -/
theorem witness_RealTimeIsAtLeastNominal_one_event :
    (Instr.delay 0).wellFormed = true ∧ State.reset.busy = false ∧
    (∃ t, exec (.delay 0) State.reset = .next t ∧
      t.trace = State.reset.trace ++ [(⟨.wait 0, 5, 5⟩ : TimedEvent)].map TimedEvent.event) ∧
    TimedRun [⟨.wait 0, 5, 5⟩] := by
  refine ⟨rfl, rfl, ⟨_, exec_idle rfl rfl, rfl⟩, ?_, by simp⟩
  simp [TimedEvent.lawful, cycles, cyclesAt, ceilDiv]

theorem witness_CanonicalBuffersReadingAlikeAreEqual :
    Memory.wf (Memory.writeByte (Memory.writeByte [] 1 5) 0 7) ∧ Memory.wf (Memory.writeByte [(0, 7)] 1 5) ∧
    Memory.writeByte (Memory.writeByte [] 1 5) 0 7 = Memory.writeByte [(0, 7)] 1 5 := by decide

end Sys2Proof.Tests
end

namespace Sys2Proof.Machine

/-! ## What a micro-program does to the line (10_state.md R38, R39) -/

/-- The direction a micro-operation sets, if it sets one. -/
def opDir : MicroOp → Option Dir
  | .setInput => some .input
  | .setOutput => some .output
  | .write _ => none
  | .read _ => none
  | .delay _ => none

/-- The level a micro-operation puts in the latch, if it does. -/
def opLevel : MicroOp → Option Level
  | .setInput => none
  | .setOutput => none
  | .write l => some l
  | .read _ => none
  | .delay _ => none

theorem runStep_dir_eq (s : State) (m : MicroStep) : (runStep s m).dir = (opDir m.op).getD s.dir := by
  rw [runStep_dir]
  cases m.op <;> rfl

theorem runStep_out_eq (s : State) (m : MicroStep) : (runStep s m).out = (opLevel m.op).getD s.out := by
  rw [runStep_out]
  cases m.op <;> rfl

theorem lastDir_append (p q : List MicroStep) : lastDir (p ++ q) = (lastDir q).or (lastDir p) := by
  induction q using List.reverseRecOn with
  | nil => simp [lastDir]
  | append_singleton q m ih =>
    simp only [lastDir, ← List.append_assoc, List.foldl_append (l' := [m]), List.foldl_cons, List.foldl_nil] at ih ⊢
    rw [ih]
    cases m.op <;> rfl

theorem lastLevel_append (p q : List MicroStep) : lastLevel (p ++ q) = (lastLevel q).or (lastLevel p) := by
  induction q using List.reverseRecOn with
  | nil => simp [lastLevel]
  | append_singleton q m ih =>
    simp only [lastLevel, ← List.append_assoc, List.foldl_append (l' := [m]), List.foldl_cons, List.foldl_nil] at ih ⊢
    rw [ih]
    cases m.op <;> rfl

theorem lastDir_singleton (m : MicroStep) : lastDir [m] = opDir m.op := by
  rw [lastDir, List.foldl_cons, List.foldl_nil]
  cases m.op <;> rfl

theorem lastLevel_singleton (m : MicroStep) : lastLevel [m] = opLevel m.op := by
  rw [lastLevel, List.foldl_cons, List.foldl_nil]
  cases m.op <;> rfl

theorem runSteps_concat (p : List MicroStep) (m : MicroStep) (s : State) :
    runSteps (p ++ [m]) s = runStep (runSteps p s) m := by
  simp [runSteps_append]

/-- A micro-program leaves the direction its last direction operation set. -/
theorem runSteps_dir (p : List MicroStep) (s : State) : (runSteps p s).dir = (lastDir p).getD s.dir := by
  induction p using List.reverseRecOn with
  | nil => rfl
  | append_singleton p m ih =>
    rw [runSteps_concat, runStep_dir_eq, lastDir_append, lastDir_singleton, ih]
    cases opDir m.op <;> rfl

/-- A micro-program leaves the level its last `Write` put in the latch. -/
theorem runSteps_out (p : List MicroStep) (s : State) : (runSteps p s).out = (lastLevel p).getD s.out := by
  induction p using List.reverseRecOn with
  | nil => rfl
  | append_singleton p m ih =>
    rw [runSteps_concat, runStep_out_eq, lastLevel_append, lastLevel_singleton, ih]
    cases opLevel m.op <;> rfl

theorem lastDir_readByte (k : Option (Fin 9)) : lastDir (readByteProgram k) = some .input := rfl

theorem lastDir_readBytes :
    lastDir (byteOrder.flatMap fun k => readByteProgram (some k)) = some .input := by
  simp [byteOrder, lastDir_append, lastDir_readByte]

theorem lastLevel_readByte (k : Option (Fin 9)) : lastLevel (readByteProgram k) = some .low := rfl

theorem lastLevel_readBytes :
    lastLevel (byteOrder.flatMap fun k => readByteProgram (some k)) = some .low := by
  simp [byteOrder, lastLevel_append, lastLevel_readByte]

/-- A one-wire operation ends with the line released. -/
theorem lastDir_oneWire {i : Instr} (h : isOneWire i = true) : lastDir (microProgram i) = some .input := by
  cases i with
  | owReset | owWriteBit | owReadBit | owWriteByte | owReadByte => rfl
  | getTemp => rw [microProgram, getTempProgram, lastDir_append, lastDir_readBytes, Option.some_or]
  | setInput | setOutput | writeLevel | readLevel | delay | decode => exact absurd h Bool.false_ne_true

/-- A one-wire operation ends with the latch Low. -/
theorem lastLevel_oneWire {i : Instr} (h : isOneWire i = true) : lastLevel (microProgram i) = some .low := by
  cases i with
  | owReset | owWriteBit | owReadBit | owWriteByte | owReadByte => rfl
  | getTemp => rw [microProgram, getTempProgram, lastLevel_append, lastLevel_readBytes, Option.some_or]
  | setInput | setOutput | writeLevel | readLevel | delay | decode => exact absurd h Bool.false_ne_true

/-! ## The lengths of the micro-programs (10_state.md R27) -/

theorem writeByteProgram_length (v : Byte) : (writeByteProgram v).length = 40 := rfl

theorem readByteProgram_length (k : Option (Fin 9)) : (readByteProgram k).length = 56 := rfl

theorem microProgram_length (i : Instr) : (microProgram i).length = (opRow i).length := by
  cases i with
  | getTemp =>
    simp [microProgram, getTempProgram, writeByteProgram_length, readByteProgram_length, owResetProgram, byteOrder,
      opRow]
  | _ => rfl

theorem microProgram_length_le (i : Instr) : (microProgram i).length ≤ 675 := by
  rw [microProgram_length]
  cases i <;> simp [opRow]

end Sys2Proof.Machine

namespace Sys2Proof.Machine

/-! ## Accepting a command (30_encoding.md R96) -/

/-- The decoder answers an encoded command with that command, by the check of its argument (30_encoding.md R95). -/
theorem decodeWord_encode (i : Instr) : decodeWord (encode i) = if i.wellFormed then .ok i else .badArg i := by
  rw [encode, decodeWord_commandWord]
  cases i <;> simp [opRow, argOf, decodeOp, checkArg, Instr.wellFormed]

theorem decodeWord_encode_wellFormed {i : Instr} (h : i.wellFormed = true) : decodeWord (encode i) = .ok i := by
  rw [decodeWord_encode, if_pos h]

/-- A word that spells an acceptable command has no reserved bit set. -/
theorem rsvField_of_ok {w : Word} {i : Instr} (h : decodeWord w = .ok i) : rsvField w = 0 := by
  by_contra hr
  rw [decodeWord, if_pos hr] at h
  cases h

/-- After a command is accepted, CMD holds its word (10_state.md R36). -/
theorem cmdWord_accept {w : Word} {i : Instr} (h : decodeWord w = .ok i) (s : State) : cmdWord (accept w s) = w :=
  commandWord_fields (rsvField_of_ok h)

/-- The state in which an idle block has just accepted `i`. -/
def started (i : Instr) (s : State) : State := accept (encode i) { s with done := false }

theorem hostWrite_started {i : Instr} {s : State} (hw : i.wellFormed = true) (hb : s.busy = false) :
    hostWrite 0x00 (encode i) s = started i s := by
  rw [hostWrite_cmd, cmdWrite, if_neg (by simp [hb]), commandWrite, decodeWord_encode_wellFormed hw]
  rfl

theorem exec_started {i : Instr} {s : State} (hw : i.wellFormed = true) (hb : s.busy = false) :
    exec i s = .next (complete (finalDecode i) (runSteps (microProgram i) (started i s))) := exec_idle hw hb

theorem cmdWord_started {i : Instr} (hw : i.wellFormed = true) (s : State) :
    decodeWord (cmdWord (started i s)) = .ok i := by
  have h := decodeWord_encode_wellFormed hw
  rw [started, cmdWord_accept h, h]

/-! ## A command's micro-program, step after step -/

/-- The block runs the command `i` and stands at its micro-step `m`. -/
structure AtStep (i : Instr) (m : MicroStep) (s : State) : Prop where
  busy : s.busy = true
  command : decodeWord (cmdWord s) = .ok i
  step : (microProgram i)[s.upc.toNat]? = some m

theorem AtStep.upc_lt {i : Instr} {m : MicroStep} {s : State} (h : AtStep i m s) :
    s.upc.toNat < (microProgram i).length := (List.getElem?_eq_some_iff.mp h.step).1

/-- The counter does not wrap inside a micro-program. -/
theorem upc_add_one {n : Nat} {u : BitVec 10} (hn : n ≤ 675) (h : u.toNat < n) : (u + 1).toNat = u.toNat + 1 := by
  rw [BitVec.toNat_add, show (1 : BitVec 10).toNat = 1 from rfl]
  omega

theorem AtStep.upc_succ {i : Instr} {m : MicroStep} {s : State} (h : AtStep i m s) :
    (s.upc + 1).toNat = s.upc.toNat + 1 := upc_add_one (microProgram_length_le i) h.upc_lt

theorem AtStep.take_succ {i : Instr} {m : MicroStep} {s : State} (h : AtStep i m s) :
    (microProgram i).take (s.upc.toNat + 1) = (microProgram i).take s.upc.toNat ++ [m] := by
  rw [List.take_add_one, h.step, Option.toList_some]

theorem runSteps_dlyCnt (p : List MicroStep) {s : State} (h : s.dlyCnt = 0) : (runSteps p s).dlyCnt = 0 := by
  induction p generalizing s with
  | nil => exact h
  | cons m p ih => exact ih (runStep_dlyCnt h)

/-- While the micro-program of a command just accepted runs, `upc` counts the micro-steps done. -/
theorem runSteps_started_upc {i : Instr} {p : List MicroStep} (hp : p.length ≤ 675) (s : State) :
    (runSteps p (started i s)).upc.toNat = p.length := by
  rw [runSteps_upc, started, accept_upc, BitVec.toNat_add, BitVec.toNat_ofNat]
  show (0 + _) % _ = _
  omega

/-- Induction over the micro-steps of a command just accepted: what holds when it starts and is carried on by each of
its micro-steps holds when the micro-program is over. -/
theorem runSteps_started_induction {i : Instr} {s : State} {P : List MicroStep → State → Prop}
    (hw : i.wellFormed = true) (hd : s.dlyCnt = 0) (start : P [] (started i s))
    (next : ∀ p m t, AtStep i m t → Moved (started i s) t → t.dlyCnt = 0 → P p t → P (p ++ [m]) (runStep t m)) :
    P (microProgram i) (runSteps (microProgram i) (started i s)) := by
  suffices ∀ n ≤ (microProgram i).length,
      P ((microProgram i).take n) (runSteps ((microProgram i).take n) (started i s)) by
    simpa using this _ le_rfl
  intro n hn
  induction n with
  | zero => simpa using start
  | succ n ih =>
    have hlt : n < (microProgram i).length := hn
    have hlen : ((microProgram i).take n).length = n := by simp; omega
    have hmoved := runSteps_moved ((microProgram i).take n) (started i s)
    have hat : AtStep i (microProgram i)[n] (runSteps ((microProgram i).take n) (started i s)) := by
      refine ⟨by rw [hmoved]; rfl, by rw [cmdWord_of_moved hmoved, cmdWord_started hw], ?_⟩
      have := microProgram_length_le i
      rw [runSteps_started_upc (by omega), hlen, List.getElem?_eq_getElem hlt]
    rw [List.take_add_one, List.getElem?_eq_getElem hlt, Option.toList_some, runSteps_concat]
    exact next _ _ _ hat hmoved (runSteps_dlyCnt _ hd) (ih hlt.le)

/-! ## The invariant of the reachable states (10_state.md R45) -/

/-- The invariant looks at neither the error flags nor the host's side. -/
theorem Invariant.after_withOutside {s : State} (h : Invariant s) (o : State) : Invariant (withOutside s o) :=
  ⟨h.busyNotDone, h.idleNoDelay, h.upcBound, h.resultBound, h.scratchWf, h.command, h.delaying, h.line⟩

/-- A CMD write to an idle block clears DONE first (10_state.md R28). -/
theorem Invariant.after_clearDone {s : State} (h : Invariant s) : Invariant { s with done := false } :=
  ⟨fun _ => rfl, h.idleNoDelay, h.upcBound, h.resultBound, h.scratchWf, h.command, h.delaying, h.line⟩

/-- A store of the idle block's host. -/
theorem Invariant.after_memWrite {s : State} (h : Invariant s) (k : Fin 9) (v : Byte) : Invariant (memWrite k v s) :=
  ⟨h.busyNotDone, h.idleNoDelay, h.upcBound, h.resultBound, wf_memWrite h.scratchWf k v, h.command, h.delaying,
    h.line⟩

theorem invariant_resetEdge (s : State) : Invariant (resetEdge s) where
  busyNotDone h := absurd h Bool.false_ne_true
  idleNoDelay _ := rfl
  upcBound := by simp [resetEdge, State.reset]
  resultBound := by simp [resetEdge, State.reset]
  scratchWf := wf_reset
  command h := absurd h Bool.false_ne_true
  delaying h := absurd rfl h
  line i hi := by
    have h0 : decodeWord (cmdWord (resetEdge s)) = .illegal .unassignedOpcode := decodeWord_commandWord 0 0
    rw [h0] at hi
    cases hi

theorem Invariant.after_accept {s : State} {w : Word} {i : Instr} (h : Invariant s) (hw : decodeWord w = .ok i)
    (hb : s.busy = false) (hd : s.done = false) : Invariant (accept w s) where
  busyNotDone _ := hd
  idleNoDelay hf := absurd hf (by simp)
  upcBound := by simp
  resultBound := h.resultBound
  scratchWf := h.scratchWf
  command _ := ⟨i, by rwa [cmdWord_accept hw], by simp⟩
  delaying hne := absurd (h.idleNoDelay hb) hne
  line j _ := by simp [stepsDone, lastDir, lastLevel]

theorem Invariant.after_commandWrite {s : State} (h : Invariant s) (hb : s.busy = false) (w : Word) :
    Invariant (commandWrite w { s with done := false }) := by
  rcases commandWrite_cases w { s with done := false } with ⟨i, hw, e⟩ | ⟨i, -, e⟩ | ⟨why, -, e⟩ <;> rw [e]
  · exact h.after_clearDone.after_accept hw hb rfl
  · exact h.after_clearDone.after_withOutside { s with errArg := true }
  · exact h.after_clearDone.after_withOutside { s with errCmd := true }

/-- The host's writes keep the invariant. -/
theorem Invariant.after_hostWrite {s : State} (h : Invariant s) (idx : BitVec 5) (w : Word) :
    Invariant (hostWrite idx w s) := by
  rcases hostWrite_cases idx w s with ⟨e, -⟩ | ⟨e, -⟩ | ⟨e, hb, -⟩ | ⟨k, v, e, -⟩ | ⟨e, -⟩ <;> rw [e]
  · exact h.after_withOutside (clearFlags w s)
  · exact h.after_withOutside { s with errBusy := true }
  · exact h.after_commandWrite hb w
  · exact h.after_memWrite k v
  · exact h

/-! ### The sequencer keeps the invariant -/

/-- From `s` the micro-step `m` has been done: `upc` has moved on, no delay is counting, and the line is where `m` puts
it. -/
structure StepDone (m : MicroStep) (s t : State) : Prop where
  moved : Moved s t
  upc : t.upc = s.upc + 1
  dlyCnt : t.dlyCnt = 0
  dir : t.dir = (opDir m.op).getD s.dir
  out : t.out = (opLevel m.op).getD s.out
  scratch : Memory.wf s.scratch → Memory.wf t.scratch

theorem wf_runStep {s : State} (h : Memory.wf s.scratch) (m : MicroStep) : Memory.wf (runStep s m).scratch := by
  rw [runStep_scratch]
  cases m.store with
  | none => exact h
  | some k => exact wf_writeByte h k.isLt _

theorem wf_afterOp {s : State} (h : Memory.wf s.scratch) (m : MicroStep) : Memory.wf (afterOp m s).scratch := by
  unfold afterOp
  cases m.store with
  | none => exact h
  | some k => exact wf_memWrite h k _

/-- A `Delay` done whole ends with the counter at 0, whatever it held. -/
theorem runStep_delay_dlyCnt {m : MicroStep} {n : Nat} (h : m.op = .delay n) (s : State) :
    (runStep s m).dlyCnt = 0 := by
  obtain ⟨op, c, k⟩ := m
  obtain rfl : op = .delay n := h
  cases k <;> rfl

theorem stepDone_runStep {m : MicroStep} {s : State} (h : (∀ n, m.op ≠ .delay n) → s.dlyCnt = 0) :
    StepDone m s (runStep s m) := by
  refine ⟨runStep_moved s m, runStep_upc s m, ?_, runStep_dir_eq s m, runStep_out_eq s m, fun hs => wf_runStep hs m⟩
  by_cases hm : ∃ n, m.op = .delay n
  · obtain ⟨n, hn⟩ := hm
    exact runStep_delay_dlyCnt hn s
  · exact runStep_dlyCnt (h (not_exists.mp hm))

/-- The cycle that counts a `Delay` to zero ends its micro-step (40_line_and_delay.md R128). -/
theorem stepDone_lastCycle {m : MicroStep} {n : Nat} (h : m.op = .delay n) (s : State) :
    StepDone m s (finishOp m { s with dlyCnt := 0 }) := by
  obtain ⟨op, c, k⟩ := m
  obtain rfl : op = .delay n := h
  refine ⟨?_, ?_, ?_, ?_, ?_, fun hs => wf_afterOp (s := { s with dlyCnt := 0 }) hs _⟩ <;> cases k <;> rfl

theorem Invariant.after_stepDone {i : Instr} {m : MicroStep} {s t : State} (h : Invariant s) (hat : AtStep i m s)
    (hd : StepDone m s t) : Invariant t := by
  have hbusy : t.busy = true := by rw [hd.moved]; exact hat.busy
  have hcmd : cmdWord t = cmdWord s := cmdWord_of_moved hd.moved
  have hupc : t.upc.toNat = s.upc.toNat + 1 := by rw [hd.upc, hat.upc_succ]
  have hlt := hat.upc_lt
  have hlen := microProgram_length_le i
  refine ⟨fun _ => ?_, fun hf => ?_, by omega, ?_, hd.scratch h.scratchWf,
    fun _ => ⟨i, by rw [hcmd]; exact hat.command, by omega⟩, fun hne => absurd hd.dlyCnt hne, fun j hj => ?_⟩
  · rw [hd.moved]
    exact h.busyNotDone hat.busy
  · simp [hbusy] at hf
  · rw [hd.moved]
    exact h.resultBound
  · rw [hcmd, hat.command] at hj
    cases hj
    obtain ⟨hdir, hout⟩ := h.line i hat.command
    simp only [stepsDone, hat.busy, if_true] at hdir hout
    rw [stepsDone, if_pos hbusy, hupc, hat.take_succ, lastDir_append, lastLevel_append, lastDir_singleton,
      lastLevel_singleton, hd.dir, hd.out]
    constructor
    · cases opDir m.op with
      | none => simpa using hdir
      | some d => simp
    · cases opLevel m.op with
      | none => simpa using hout
      | some l => simp

/-- The count of a `Delay` in progress changes, and `upc` is held. -/
theorem Invariant.delayCounting {i : Instr} {m : MicroStep} {n : Nat} {s t : State} (h : Invariant s)
    (hat : AtStep i m s) (hop : m.op = .delay n) (hm : Moved s t) (hupc : t.upc = s.upc) (hdir : t.dir = s.dir)
    (hout : t.out = s.out) (hscr : t.scratch = s.scratch) : Invariant t := by
  have hbusy : t.busy = s.busy := by rw [hm]
  have hcmd : cmdWord t = cmdWord s := cmdWord_of_moved hm
  have hdone : t.done = s.done := by rw [hm]
  have hres : t.result = s.result := by rw [hm]
  have hdo : ∀ j, stepsDone j t = stepsDone j s := fun j => by simp only [stepsDone, hbusy, hupc]
  refine ⟨fun _ => ?_, fun hf => ?_, ?_, ?_, ?_, fun _ => ?_, fun _ => ?_, fun j hj => ?_⟩
  · rw [hdone]
    exact h.busyNotDone hat.busy
  · rw [hbusy, hat.busy] at hf
    cases hf
  · rw [hupc]
    exact h.upcBound
  · rw [hres]
    exact h.resultBound
  · rw [hscr]
    exact h.scratchWf
  · rw [hcmd, hupc]
    exact h.command hat.busy
  · exact ⟨i, m, n, by rw [hcmd]; exact hat.command, by rw [hupc]; exact hat.step, hop⟩
  · rw [hdo, hdir, hout]
    exact h.line j (hcmd ▸ hj)

/-- A delay counts only where the sequencer stands at a `Delay`. -/
theorem Invariant.noDelay {i : Instr} {s : State} (h : Invariant s) (hi : decodeWord (cmdWord s) = .ok i)
    (hn : ∀ m n, (microProgram i)[s.upc.toNat]? = some m → m.op ≠ .delay n) : s.dlyCnt = 0 := by
  by_contra hne
  obtain ⟨j, m, n, hj, hm, hop⟩ := h.delaying hne
  rw [hi] at hj
  cases hj
  exact hn m n hm hop

theorem beforeOp_moved (m : MicroStep) (s : State) : Moved s (beforeOp m s) := by
  unfold beforeOp
  split <;> rfl

theorem Invariant.after_microStep {i : Instr} {m : MicroStep} {s : State} (h : Invariant s) (hat : AtStep i m s) :
    Invariant (microStep m s) := by
  rcases microStep_cases m s with e | ⟨n, hop, -, -, e⟩ | ⟨n, hop, -, -, e⟩ | ⟨n, hop, -, e⟩ <;> rw [e]
  · refine h.after_stepDone hat (stepDone_runStep fun hop => h.noDelay hat.command fun m' n hm' => ?_)
    rw [hat.step] at hm'
    cases hm'
    exact hop n
  · refine h.delayCounting hat hop ((beforeOp_moved m s).trans rfl) ?_ ?_ ?_ ?_ <;> unfold beforeOp <;> split <;> rfl
  · exact h.delayCounting hat hop rfl rfl rfl rfl rfl
  · exact h.after_stepDone hat (stepDone_lastCycle hop s)

/-! ### The completion step keeps the invariant -/

theorem resultField_celsius_toNat (c : BitVec 11) : (resultField .celsius c).toNat = 5 * c.toNat := by
  have := c.isLt
  rw [resultField, BitVec.toNat_mul, BitVec.toNat_setWidth, show (5 : BitVec 16).toNat = 5 from rfl]
  omega

theorem resultField_fahrenheit_toNat (c : BitVec 11) : (resultField .fahrenheit c).toNat = 9 * c.toNat + 2560 := by
  have := c.isLt
  rw [resultField, BitVec.toNat_add, BitVec.toNat_mul, BitVec.toNat_setWidth, show (9 : BitVec 16).toNat = 9 from rfl,
    show (2560 : BitVec 16).toNat = 2560 from rfl]
  omega

/-- The largest numerator: 127 and 15/16 degrees in Fahrenheit (43_temperature.md R179). -/
theorem resultField_le (u : TempUnit) (c : BitVec 11) : (resultField u c).toNat ≤ 20983 := by
  have := c.isLt
  cases u with
  | celsius =>
    rw [resultField_celsius_toNat]
    omega
  | fahrenheit =>
    rw [resultField_fahrenheit_toNat]
    omega

/-- The completion step writes the flags and, where it decodes, `celsius` and `result` (10_state.md R26,
43_temperature.md R176). -/
theorem complete_eq (f : Option TempUnit) (s : State) :
    complete f s = { s with
      busy := false, done := true, celsius := (complete f s).celsius, result := (complete f s).result } := by
  cases f with
  | none => rfl
  | some u => simp only [complete, decodeStep_eq]; rfl

section

variable (f : Option TempUnit) (s : State)

@[simp] theorem complete_busy : (complete f s).busy = false := by rw [complete_eq]
@[simp] theorem complete_done : (complete f s).done = true := by rw [complete_eq]
@[simp] theorem complete_upc : (complete f s).upc = s.upc := by rw [complete_eq]
@[simp] theorem complete_dlyCnt : (complete f s).dlyCnt = s.dlyCnt := by rw [complete_eq]
@[simp] theorem complete_dir : (complete f s).dir = s.dir := by rw [complete_eq]
@[simp] theorem complete_out : (complete f s).out = s.out := by rw [complete_eq]
@[simp] theorem complete_acc : (complete f s).acc = s.acc := by rw [complete_eq]
@[simp] theorem complete_scratch : (complete f s).scratch = s.scratch := by rw [complete_eq]
@[simp] theorem complete_errArg : (complete f s).errArg = s.errArg := by rw [complete_eq]
@[simp] theorem complete_errCmd : (complete f s).errCmd = s.errCmd := by rw [complete_eq]
@[simp] theorem complete_errBusy : (complete f s).errBusy = s.errBusy := by rw [complete_eq]
@[simp] theorem complete_host : (complete f s).host = s.host := by rw [complete_eq]
@[simp] theorem complete_hostLog : (complete f s).hostLog = s.hostLog := by rw [complete_eq]
@[simp] theorem complete_hostDraws : (complete f s).hostDraws = s.hostDraws := by rw [complete_eq]
@[simp] theorem complete_trace : (complete f s).trace = s.trace := by rw [complete_eq]; rfl
@[simp] theorem complete_cmdWord : cmdWord (complete f s) = cmdWord s := by rw [complete_eq]; rfl

end

theorem complete_result_le (f : Option TempUnit) {s : State} (h : s.result.toNat ≤ 20983) :
    (complete f s).result.toNat ≤ 20983 := by
  cases f with
  | none => exact h
  | some u =>
    simp only [complete, decodeStep_eq, finishFlags_result]
    split
    · exact Nat.zero_le _
    · exact resultField_le u _

theorem Invariant.after_complete {i : Instr} {s : State} (h : Invariant s) (hb : s.busy = true)
    (hi : decodeWord (cmdWord s) = .ok i) (hu : s.upc.toNat = (microProgram i).length) (f : Option TempUnit) :
    Invariant (complete f s) := by
  have hd : s.dlyCnt = 0 := h.noDelay hi fun m n hm => by simp [hu] at hm
  have hline := h.line i hi
  rw [stepsDone, if_pos hb, hu, List.take_length] at hline
  refine ⟨by simp, by simpa using hd, by simpa using h.upcBound, complete_result_le f h.resultBound,
    by simpa using h.scratchWf, by simp, by simp [hd], fun j hj => ?_⟩
  rw [complete_cmdWord, hi] at hj
  cases hj
  simpa [stepsDone] using hline

theorem Invariant.after_seqStep {s t : State} (h : Invariant s) (hb : s.busy = true) (ht : seqStep s = .next t) :
    Invariant t := by
  obtain ⟨i, hi, ⟨m, hm, rfl⟩ | ⟨hu, rfl⟩⟩ := seqStep_cases ht
  · exact h.after_microStep ⟨hb, hi, hm⟩
  · exact h.after_complete hb hi hu _

theorem Invariant.after_clockStep {s t : State} (h : Invariant s) (ht : clockStep s = .next t) : Invariant t := by
  rcases Bool.eq_false_or_eq_true s.busy with hb | hb
  · rw [clockStep_busy hb] at ht
    exact h.after_seqStep hb ht
  · rw [clockStep_idle hb] at ht
    cases ht
    exact h

/-- A whole command keeps the invariant: each of its micro-steps does, and the completion step. -/
theorem Invariant.after_exec {i : Instr} {s t : State} (h : Invariant s) (ht : exec i s = .next t) : Invariant t := by
  rcases exec_cases i s with ⟨-, e⟩ | ⟨-, -, e⟩ | ⟨hb, hw, -⟩
  · cases e.symm.trans ht
    exact h.after_withOutside { s with errBusy := true }
  · cases e.symm.trans ht
    exact h.after_clearDone.after_withOutside { s with errArg := true }
  · cases (exec_started hw hb).symm.trans ht
    have hrun : Invariant (runSteps (microProgram i) (started i s)) :=
      runSteps_started_induction (P := fun _ t => Invariant t) hw (h.idleNoDelay hb)
        (h.after_clearDone.after_accept (decodeWord_encode_wellFormed hw) hb rfl)
        fun _ _ _ hat _ hd hinv => hinv.after_stepDone hat (stepDone_runStep fun _ => hd)
    have hmoved := runSteps_moved (microProgram i) (started i s)
    refine hrun.after_complete ?_ ?_ (runSteps_started_upc (microProgram_length_le i) s) _
    · rw [hmoved]
      rfl
    · rw [cmdWord_of_moved hmoved, cmdWord_started hw]

/-- Settles O4, by what each kind of step does to the invariant. -/
theorem everyStepKeepsTheInvariant : Obligations.EveryStepKeepsTheInvariant := by
  intro s t h ht
  have h' (rest : List HostAct) : Invariant { s with host := rest } := h.after_withOutside { s with host := rest }
  rcases step_cases ht with ⟨-, ht⟩ | ⟨rest, ⟨w, i, -, -, ht⟩ | ⟨w, -, -, rfl⟩ | ⟨idx, w, -, rfl⟩ | ⟨idx, -, rfl⟩ |
    ⟨-, ht⟩ | ⟨-, rfl⟩⟩
  · exact h.after_clockStep ht
  · exact (h' rest).after_exec ht
  · exact (h' rest).after_hostWrite 0x00 w
  · exact (h' rest).after_hostWrite idx w
  · exact (h' rest).after_withOutside (hostReadStep idx { s with host := rest })
  · exact (h' rest).after_clockStep ht
  · exact invariant_resetEdge _

end Sys2Proof.Machine

namespace Sys2Proof.Machine

/-! ## The reachable states (10_state.md R45) -/

/-- What every step keeps, every run keeps. -/
theorem run_keeps (M : Host.Core) {P : M.State → Prop} (keep : ∀ s t, P s → M.step s = .next t → P t) {n : Nat}
    {s t : M.State} (h : P s) (hr : M.run n s = .next t) : P t := by
  induction n generalizing s with
  | zero =>
    cases hr
    exact h
  | succ n ih =>
    cases hs : M.step s with
    | next u =>
      rw [run_of_next M n hs] at hr
      exact ih (keep s u h hs) hr
    | fault r =>
      rw [run_of_fault M n hs] at hr
      cases hr
    | refused r =>
      rw [run_of_refused M n hs] at hr
      cases hr

/-- Settles O3: a reset edge with that host and that script leads to this state. -/
theorem invariantHoldsAtReset : Obligations.InvariantHoldsAtReset := fun h ls =>
  invariant_resetEdge { State.reset with host := h, lineIn := ls }

/-- When the block is idle, the line is where the last accepted command left it. -/
theorem Invariant.idle_line {i : Instr} {s : State} (h : Invariant s) (hb : s.busy = false)
    (hi : decodeWord (cmdWord s) = .ok i) :
    (∀ d ∈ lastDir (microProgram i), s.dir = d) ∧ (∀ l ∈ lastLevel (microProgram i), s.out = l) := by
  simpa [stepsDone, hb] using h.line i hi

/-- Settles O6: the invariant holds at reset, every step keeps it, and it gives R45's clauses. -/
theorem reachableStatesMeetTheStateRules : Obligations.ReachableStatesMeetTheStateRules := by
  intro h ls n s hr
  have hs : Invariant s :=
    run_keeps Sys2Proof.core (P := Invariant) everyStepKeepsTheInvariant (invariantHoldsAtReset h ls) hr
  refine ⟨hs.busyNotDone, hs.idleNoDelay, hs.upcBound, Nat.le_of_lt_succ s.celsius.isLt, hs.resultBound, ?_⟩
  intro i hb hi ho
  obtain ⟨hdir, hout⟩ := hs.idle_line hb hi
  exact ⟨hdir _ (lastDir_oneWire ho), hout _ (lastLevel_oneWire ho)⟩

/-! ## A command as the sequencer runs it (10_state.md R26, R27; 40_line_and_delay.md R128) -/

/-- `k` steps lead from `s` to `t`, and the block is busy before each of them. -/
structure BusyRun (k : Nat) (s t : State) : Prop where
  run : Sys2Proof.core.run k s = .next t
  busy : ∀ j < k, ∃ u, Sys2Proof.core.run j s = .next u ∧ u.busy = true

theorem BusyRun.refl (s : State) : BusyRun 0 s s := ⟨rfl, fun _ hj => absurd hj (Nat.not_lt_zero _)⟩

theorem BusyRun.single {s t : State} (hb : s.busy = true) (h : step s = .next t) : BusyRun 1 s t := by
  refine ⟨run_of_next Sys2Proof.core 0 h, fun j hj => ⟨s, ?_, hb⟩⟩
  obtain rfl : j = 0 := Nat.lt_one_iff.mp hj
  rfl

theorem BusyRun.trans {a b : Nat} {s t u : State} (h : BusyRun a s t) (k : BusyRun b t u) : BusyRun (a + b) s u := by
  refine ⟨(run_add Sys2Proof.core a b h.run).trans k.run, fun j hj => ?_⟩
  by_cases ha : j < a
  · exact h.busy j ha
  · obtain ⟨v, hv, hb⟩ := k.busy (j - a) (by omega)
    refine ⟨v, ?_, hb⟩
    rw [← run_add Sys2Proof.core a (j - a) h.run, Nat.add_sub_of_le (not_lt.mp ha)] at hv
    exact hv

/-- With nothing asked by the host, a busy block takes the sequencer's step. -/
theorem step_of_noHost {i : Instr} {s : State} (hh : s.host = []) (hb : s.busy = true)
    (hi : decodeWord (cmdWord s) = .ok i) : step s = commandStep i s := by
  rw [step_nil hh, clockStep_busy hb, seqStep_of_command hi]

theorem step_atStep {i : Instr} {m : MicroStep} {s : State} (h : AtStep i m s) (hh : s.host = []) :
    step s = .next (microStep m s) := by
  rw [step_of_noHost hh h.busy h.command]
  simp only [commandStep, h.step]

/-- While `upc` is held, whatever a micro-program can touch, the block stands at the same micro-step. -/
theorem AtStep.of_moved {i : Instr} {m : MicroStep} {s t : State} (h : AtStep i m s) (hm : Moved s t)
    (hu : t.upc = s.upc) : AtStep i m t :=
  ⟨by rw [hm]; exact h.busy, by rw [cmdWord_of_moved hm]; exact h.command, by rw [hu]; exact h.step⟩

theorem host_of_moved {s t : State} (h : Moved s t) : t.host = s.host := by rw [h]

/-- Every delay of a micro-program is one the counter can hold. -/
def ShortDelays (p : List MicroStep) : Prop := ∀ m ∈ p, ∀ n, m.op = .delay n → n ≤ 65535

theorem ShortDelays.append {p q : List MicroStep} (hp : ShortDelays p) (hq : ShortDelays q) : ShortDelays (p ++ q) :=
  fun m hm => (List.mem_append.mp hm).elim (hp m) (hq m)

theorem shortDelays_flatMap {α : Type} (l : List α) {f : α → List MicroStep} (h : ∀ x, ShortDelays (f x)) :
    ShortDelays (l.flatMap f) := fun m hm =>
  have ⟨x, _, hx⟩ := List.mem_flatMap.mp hm
  h x m hx

theorem shortDelays_owReset : ShortDelays owResetProgram := by
  simp [ShortDelays, owResetProgram, plain, Config.tResetLow, Config.tResetWait]

theorem shortDelays_writeSlot (b : Bool) : ShortDelays (writeSlot b) := by
  cases b <;>
    simp [ShortDelays, writeSlot, plain, Config.tW0Low, Config.tW0Rel, Config.tW1Low, Config.tW1Rel]

theorem shortDelays_readSlot (sink : Sink) (c : Bool) (k : Option (Fin 9)) : ShortDelays (readSlot sink c k) := by
  simp [ShortDelays, readSlot, plain, Config.tRInit, Config.tRSample, Config.tRRest]

theorem shortDelays_writeByte (v : Byte) : ShortDelays (writeByteProgram v) :=
  shortDelays_flatMap _ fun _ => shortDelays_writeSlot _

theorem shortDelays_readByte (k : Option (Fin 9)) : ShortDelays (readByteProgram k) :=
  shortDelays_flatMap _ fun _ => shortDelays_readSlot _ _ _

theorem shortDelays_delay {n : Nat} (h : n ≤ 65535) : ShortDelays [plain (.delay n)] := by
  simpa [ShortDelays, plain] using h

theorem shortDelays_getTemp : ShortDelays getTempProgram :=
  ((((((shortDelays_owReset.append (shortDelays_writeByte _)).append (shortDelays_writeByte _)).append
    (shortDelays_delay (by decide))).append shortDelays_owReset).append (shortDelays_writeByte _)).append
    (shortDelays_writeByte _)).append (shortDelays_flatMap _ fun _ => shortDelays_readByte _)

theorem shortDelays_microProgram (i : Instr) : ShortDelays (microProgram i) := by
  cases i with
  | delay n => exact shortDelays_delay (Nat.le_of_lt_succ n.isLt)
  | owReset => exact shortDelays_owReset
  | owWriteBit b => exact shortDelays_writeSlot b
  | owReadBit => exact shortDelays_readSlot _ _ _
  | owWriteByte v => exact shortDelays_writeByte v
  | owReadByte => exact shortDelays_readByte none
  | getTemp => exact shortDelays_getTemp
  | setInput | setOutput | writeLevel | readLevel | decode =>
    simp [ShortDelays, microProgram, setInputProgram, setOutputProgram, writeLevelProgram, readLevelProgram, plain]

theorem delayCount_toNat {n : Nat} (h : n ≤ 65535) : (delayCount n).toNat = cycles n := by
  rw [delayCount, BitVec.toNat_ofNat, Nat.mod_eq_of_lt (cycles_lt h)]

/-! ### The sequencer at a `Delay`, by the count it finds -/

theorem microStep_load {m : MicroStep} {n : Nat} {s : State} (hop : m.op = .delay n) (hd : s.dlyCnt = 0)
    (hn : delayCount n ≠ 0) : microStep m s = loadDelay n (beforeOp m s) := by
  simp only [microStep, hop, if_pos hd]
  exact if_neg hn

theorem microStep_loadZero {m : MicroStep} {n : Nat} {s : State} (hop : m.op = .delay n) (hd : s.dlyCnt = 0)
    (hn : delayCount n = 0) : microStep m s = runStep s m := by
  simp only [microStep, hop, if_pos hd, runStep, performOp]
  rw [delayStart, if_pos ((loadDelay_dlyCnt _ n).trans hn), loadDelay, hn]
  rfl

theorem microStep_cycle {m : MicroStep} {n : Nat} {s : State} (hop : m.op = .delay n) (hd : 1 < s.dlyCnt.toNat) :
    microStep m s = countDelay s := by
  have h0 : s.dlyCnt ≠ 0 := fun h => by simp [h] at hd
  have h1 : s.dlyCnt - 1 ≠ 0 := fun h => by
    rw [BitVec.sub_eq_iff_eq_add] at h
    simp [h] at hd
  simp only [microStep, hop, if_neg h0]
  exact if_neg h1

theorem microStep_lastCycle {m : MicroStep} {n : Nat} {s : State} (hop : m.op = .delay n) (hd : s.dlyCnt = 1) :
    microStep m s = finishOp m { s with dlyCnt := 0 } := by
  have h0 : s.dlyCnt ≠ 0 := fun h => by simp [h] at hd
  have hc : countDelay s = { s with dlyCnt := 0 } := by simp [countDelay, hd]
  simp only [microStep, hop, if_neg h0, delayCycle, hc, if_true]

/-- Any other micro-operation is done whole in one step. -/
theorem microStep_of_ne_delay {m : MicroStep} (h : ∀ n, m.op ≠ .delay n) (s : State) :
    microStep m s = runStep s m ∧ stepTicks m = 1 := by
  unfold microStep stepTicks
  cases hop : m.op with
  | delay n => exact absurd hop (h n)
  | setInput | setOutput | write | read => exact ⟨rfl, rfl⟩

/-- Done whole, a `Delay` is its load and then its last cycle. -/
theorem runStep_delay {m : MicroStep} {n : Nat} (hop : m.op = .delay n) (s : State) :
    runStep s m = finishOp m { loadDelay n (beforeOp m s) with dlyCnt := 0 } := by
  simp only [runStep, hop, performOp]
  rfl

/-- A count of `c + 1` takes `c + 1` cycles, and the last of them ends the micro-step. -/
theorem busyRun_countdown {i : Instr} {m : MicroStep} {n : Nat} (hop : m.op = .delay n) (c : Nat) {s : State}
    (hat : AtStep i m s) (hh : s.host = []) (hc : s.dlyCnt.toNat = c + 1) :
    BusyRun (c + 1) s (finishOp m { s with dlyCnt := 0 }) := by
  have hnext := step_atStep hat hh
  induction c generalizing s with
  | zero =>
    rw [microStep_lastCycle hop (BitVec.eq_of_toNat_eq hc)] at hnext
    exact .single hat.busy hnext
  | succ c ih =>
    rw [microStep_cycle hop (by omega)] at hnext
    have hat' : AtStep i m (countDelay s) := hat.of_moved rfl rfl
    have hc' : (countDelay s).dlyCnt.toNat = c + 1 := by
      rw [countDelay_dlyCnt, BitVec.toNat_sub_of_le (by rw [BitVec.le_def, hc]; exact Nat.le_add_left 1 _), hc]
      rfl
    rw [Nat.add_comm]
    exact (BusyRun.single hat.busy hnext).trans (ih hat' hh hc' (step_atStep hat' hh))

/-- The sequencer does a micro-step in `stepTicks` steps, and ends where the micro-step done whole ends. -/
theorem busyRun_microStep {i : Instr} {m : MicroStep} {s : State} (hat : AtStep i m s) (hh : s.host = [])
    (hd : s.dlyCnt = 0) : BusyRun (stepTicks m) s (runStep s m) := by
  have hnext := step_atStep hat hh
  by_cases hop : ∃ n, m.op = .delay n
  · obtain ⟨n, hop⟩ := hop
    have hcount := delayCount_toNat (shortDelays_microProgram i m (List.mem_of_getElem? hat.step) n hop)
    have hticks : stepTicks m = 1 + cycles n := by simp only [stepTicks, hop]
    rw [hticks]
    cases hc : cycles n with
    | zero =>
      rw [microStep_loadZero hop hd (BitVec.eq_of_toNat_eq (hcount.trans hc))] at hnext
      exact .single hat.busy hnext
    | succ c =>
      rw [hc] at hcount
      rw [microStep_load hop hd fun h => by simp [h] at hcount] at hnext
      have hat' : AtStep i m (loadDelay n (beforeOp m s)) :=
        hat.of_moved ((beforeOp_moved m s).trans rfl) (by unfold beforeOp; split <;> rfl)
      rw [runStep_delay hop]
      exact (BusyRun.single hat.busy hnext).trans
        (busyRun_countdown hop c hat' ((host_of_moved (beforeOp_moved m s)).trans hh) hcount)
  · obtain ⟨hwhole, hticks⟩ := microStep_of_ne_delay (not_exists.mp hop) s
    rw [hwhole] at hnext
    rw [hticks]
    exact .single hat.busy hnext

/-- The sequencer's run of a micro-program just started. -/
theorem busyRun_microProgram {i : Instr} {s : State} (hw : i.wellFormed = true) (hd : s.dlyCnt = 0)
    (hh : s.host = []) :
    BusyRun ((microProgram i).map stepTicks).sum (started i s) (runSteps (microProgram i) (started i s)) := by
  refine runSteps_started_induction (P := fun p t => BusyRun (p.map stepTicks).sum (started i s) t) hw hd
    (.refl _) fun p m t hat hmoved hd' hrun => ?_
  rw [List.map_append, List.sum_append, List.map_singleton, List.sum_singleton]
  exact hrun.trans (busyRun_microStep hat ((host_of_moved hmoved).trans hh) hd')

theorem commandStep_complete {i : Instr} {s : State} (h : s.upc.toNat = (microProgram i).length) :
    commandStep i s = .next (complete (finalDecode i) s) := by
  rw [commandStep, h, List.getElem?_eq_none le_rfl]
  exact if_pos rfl

/-- A command just accepted is busy until its completion step, and ends there. -/
theorem busyRun_command {i : Instr} {s : State} (hw : i.wellFormed = true) (hd : s.dlyCnt = 0) (hh : s.host = []) :
    BusyRun (commandTicks i) (started i s)
      (complete (finalDecode i) (runSteps (microProgram i) (started i s))) := by
  have hmoved := runSteps_moved (microProgram i) (started i s)
  have hbusy : (runSteps (microProgram i) (started i s)).busy = true := by
    rw [hmoved]
    rfl
  refine (busyRun_microProgram hw hd hh).trans (.single hbusy ?_)
  rw [step_of_noHost ((host_of_moved hmoved).trans hh) hbusy (by rw [cmdWord_of_moved hmoved, cmdWord_started hw])]
  exact commandStep_complete (runSteps_started_upc (microProgram_length_le i) s)

/-- Settles O19: the micro-program's steps, then the completion step. -/
theorem sequencerEndsWhereTheCommandEnds : Obligations.SequencerEndsWhereTheCommandEnds := by
  intro i s hw ⟨hb, hd⟩
  have hstart : { hostWrite 0x00 (encode i) s with host := [] } = started i { s with host := [] } := by
    rw [hostWrite_started hw hb]
    rfl
  obtain ⟨hend, hbusy⟩ := busyRun_command (s := { s with host := [] }) hw hd rfl
  rw [hstart]
  exact ⟨hend.trans (exec_started (s := { s with host := [] }) hw hb).symm, hbusy⟩

end Sys2Proof.Machine

namespace Sys2Proof.Machine

/-! ## The error flags and DONE (10_state.md R28, R29) -/

theorem microStep_moved (m : MicroStep) (s : State) : Moved s (microStep m s) := by
  rcases microStep_cases m s with e | ⟨n, -, -, -, e⟩ | ⟨n, -, -, -, e⟩ | ⟨n, hop, -, e⟩ <;> rw [e]
  · exact runStep_moved s m
  · exact (beforeOp_moved m s).trans rfl
  · rfl
  · exact (stepDone_lastCycle hop s).moved

theorem causeFlag_of_moved {s t : State} (h : Moved s t) (c : Cause) : causeFlag c t = causeFlag c s := by
  rw [h]
  cases c <;> rfl

@[simp] theorem causeFlag_complete (c : Cause) (f : Option TempUnit) (s : State) :
    causeFlag c (complete f s) = causeFlag c s := by
  cases c <;> simp [causeFlag]

/-- The sequencer touches no error flag. -/
theorem causeFlag_clockStep {s t : State} (h : clockStep s = .next t) (c : Cause) : causeFlag c t = causeFlag c s := by
  rcases Bool.eq_false_or_eq_true s.busy with hb | hb
  · rw [clockStep_busy hb] at h
    obtain ⟨i, -, ⟨m, -, rfl⟩ | ⟨-, rfl⟩⟩ := seqStep_cases h
    · exact causeFlag_of_moved (microStep_moved m s) c
    · exact causeFlag_complete c _ s
  · rw [clockStep_idle hb] at h
    cases h
    rfl

/-- Raising a cause clears no flag. -/
theorem causeFlag_raise {c : Cause} {s : State} (h : causeFlag c s = true) (d : Cause) :
    causeFlag c (raise d s) = true := by
  cases d <;> cases c <;> simp_all [raise, causeFlag]

/-- A command line can only set an error flag. -/
theorem causeFlag_exec {i : Instr} {s t : State} (h : exec i s = .next t) {c : Cause} (hc : causeFlag c s = true) :
    causeFlag c t = true := by
  rcases exec_cases i s with ⟨-, e⟩ | ⟨-, -, e⟩ | ⟨hb, hw, -⟩
  · cases e.symm.trans h
    exact causeFlag_raise hc .busyWrite
  · cases e.symm.trans h
    exact causeFlag_raise (s := { s with done := false }) hc .invalidArgument
  · cases (exec_started hw hb).symm.trans h
    rw [causeFlag_complete, causeFlag_of_moved (runSteps_moved _ _)]
    exact hc

theorem causeFlag_clearFlags (c : Cause) (w : Word) (s : State) :
    causeFlag c (clearFlags w s) = (causeFlag c s && !w.getLsbD c.code) := by
  cases c <;> rfl

/-- A bare write clears an error flag only at STATUS, by the flag's bit (10_state.md R31). -/
theorem causeFlag_hostWrite {idx : BitVec 5} {w : Word} {s : State} {c : Cause} (hc : causeFlag c s = true) :
    causeFlag c (hostWrite idx w s) = true ∨ (idx = 0x01 ∧ w.getLsbD c.code = true) := by
  rcases hostWrite_cases idx w s with ⟨e, hi⟩ | ⟨e, -⟩ | ⟨e, -, -⟩ | ⟨k, v, e, -⟩ | ⟨e, -⟩ <;> rw [e]
  · rw [causeFlag_clearFlags, hc]
    cases hw : w.getLsbD c.code
    · exact .inl rfl
    · exact .inr ⟨hi, rfl⟩
  · exact .inl (causeFlag_raise hc .busyWrite)
  · left
    rcases commandWrite_cases w { s with done := false } with ⟨i, -, e⟩ | ⟨i, -, e⟩ | ⟨why, -, e⟩ <;> rw [e]
    · exact hc
    · exact causeFlag_raise (s := { s with done := false }) hc .invalidArgument
    · exact causeFlag_raise (s := { s with done := false }) hc .illegalCommand
  · exact .inl hc
  · exact .inl hc

/-- Settles O41, by the kinds of step: only a STATUS write and a reset edge clear a flag. -/
theorem errorFlagsAreSticky : Obligations.ErrorFlagsAreSticky := by
  intro c s t ht hc
  have hc' (rest : List HostAct) : causeFlag c { s with host := rest } = true := hc
  rcases step_cases ht with ⟨-, ht⟩ | ⟨rest, ⟨w, i, -, -, ht⟩ | ⟨w, -, -, rfl⟩ | ⟨idx, w, hh, rfl⟩ | ⟨idx, -, rfl⟩ |
    ⟨-, ht⟩ | ⟨hh, -⟩⟩
  · exact .inl ((causeFlag_clockStep ht c).trans hc)
  · exact .inl (causeFlag_exec ht (hc' rest))
  · exact .inl ((causeFlag_hostWrite (hc' rest)).resolve_right (by simp))
  · rcases causeFlag_hostWrite (idx := idx) (w := w) (hc' rest) with h | ⟨rfl, hw⟩
    · exact .inl h
    · exact .inr (.inl ⟨w, rest, hh, hw⟩)
  · exact .inl hc
  · exact .inl ((causeFlag_clockStep ht c).trans hc)
  · exact .inr (.inr ⟨rest, hh⟩)

/-- A decoder's answer agrees with the check of the argument (30_encoding.md R94, R95). -/
def ArgChecked (d : Decoded) : Prop :=
  (∀ i, d = .ok i → i.wellFormed = true) ∧ ∀ i, d = .badArg i → i.wellFormed = false

theorem argChecked_ok {i : Instr} (h : i.wellFormed = true) : ArgChecked (.ok i) := by
  refine ⟨fun j hj => ?_, nofun⟩
  cases hj
  exact h

theorem argChecked_illegal (why : IllegalWord) : ArgChecked (.illegal why) := ⟨nofun, nofun⟩

theorem argChecked_ite {p : Prop} [Decidable p] {d e : Decoded} (hd : ArgChecked d) (he : ArgChecked e) :
    ArgChecked (if p then d else e) := by
  split
  · exact hd
  · exact he

theorem argChecked_checkArg (i : Instr) : ArgChecked (checkArg i) := by
  unfold checkArg
  cases h : i.wellFormed with
  | true => exact argChecked_ok h
  | false =>
    refine ⟨nofun, fun j hj => ?_⟩
    cases hj
    exact h

theorem argChecked_formatN (arg : BitVec 16) {i : Instr} (h : i.wellFormed = true) : ArgChecked (formatN arg i) :=
  argChecked_ite (argChecked_ok h) (argChecked_illegal _)

theorem argChecked_formatB (arg : BitVec 16) {f : Bool → Instr} (h : ∀ b, (f b).wellFormed = true) :
    ArgChecked (formatB arg f) := argChecked_ite (argChecked_ok (h _)) (argChecked_illegal _)

theorem argChecked_formatY (arg : BitVec 16) {f : Byte → Decoded} (h : ∀ v, ArgChecked (f v)) :
    ArgChecked (formatY arg f) := argChecked_ite (h _) (argChecked_illegal _)

theorem argChecked_decodeOp (op : Byte) (arg : BitVec 16) : ArgChecked (decodeOp op arg) :=
  argChecked_ite (argChecked_formatN arg rfl) <|
  argChecked_ite (argChecked_formatN arg rfl) <|
  argChecked_ite (argChecked_formatB arg fun _ => rfl) <|
  argChecked_ite (argChecked_formatN arg rfl) <|
  argChecked_ite (argChecked_ok rfl) <|
  argChecked_ite (argChecked_formatN arg rfl) <|
  argChecked_ite (argChecked_formatB arg fun _ => rfl) <|
  argChecked_ite (argChecked_formatN arg rfl) <|
  argChecked_ite (argChecked_formatY arg fun _ => argChecked_ok rfl) <|
  argChecked_ite (argChecked_formatN arg rfl) <|
  argChecked_ite (argChecked_formatY arg fun _ => argChecked_checkArg _) <|
  argChecked_ite (argChecked_formatY arg fun _ => argChecked_checkArg _) <|
  argChecked_illegal _

/-- The decoder answers Ok for the well-formed commands and BadArg for the others. -/
theorem argChecked_decodeWord (w : Word) : ArgChecked (decodeWord w) :=
  argChecked_ite (argChecked_illegal _) (argChecked_decodeOp _ _)

/-- A word that spells a well-formed command is one the block accepts. -/
theorem decodeWord_of_spelled {w : Word} {i : Instr} (h : spelled w = some i) (hw : i.wellFormed = true) :
    decodeWord w = .ok i := by
  refine (spelled_eq_some h).resolve_right fun hbad => ?_
  rw [(argChecked_decodeWord w).2 i hbad] at hw
  cases hw

/-- A command line leaves DONE set only if DONE was set before, or it has completed (10_state.md R28). -/
theorem exec_done {i : Instr} {s t : State} (h : exec i s = .next t) (hs : s.done = false) (ht : t.done = true) :
    s.busy = false ∧ t.busy = false ∧ i.wellFormed = true := by
  rcases exec_cases i s with ⟨-, e⟩ | ⟨-, -, e⟩ | ⟨hb, hw, e⟩ <;> cases e.symm.trans h
  · rw [hs] at ht
    cases ht
  · cases ht
  · exact ⟨hb, complete_busy _ _, hw⟩

/-- A bare write never sets DONE. -/
theorem hostWrite_done {idx : BitVec 5} {w : Word} {s : State} (hs : s.done = false) :
    (hostWrite idx w s).done = false := by
  rcases hostWrite_cases idx w s with ⟨e, -⟩ | ⟨e, -⟩ | ⟨e, -, -⟩ | ⟨k, v, e, -⟩ | ⟨e, -⟩ <;> rw [e]
  case inr.inr.inl =>
    rcases commandWrite_cases w { s with done := false } with ⟨i, -, e⟩ | ⟨i, -, e⟩ | ⟨why, -, e⟩ <;>
      simp [e]
  all_goals exact hs

/-- The sequencer sets DONE at the end of a micro-program only (10_state.md R26). -/
theorem clockStep_done {s t : State} (h : clockStep s = .next t) (hs : s.done = false) (ht : t.done = true) :
    s.busy = true ∧ t.busy = false ∧ ∃ i, decodeWord (cmdWord s) = .ok i ∧ s.upc.toNat = (microProgram i).length := by
  rcases Bool.eq_false_or_eq_true s.busy with hb | hb
  · rw [clockStep_busy hb] at h
    obtain ⟨i, hi, ⟨m, -, rfl⟩ | ⟨hu, rfl⟩⟩ := seqStep_cases h
    · rw [microStep_moved m s] at ht
      rw [show s.done = true from ht] at hs
      cases hs
    · exact ⟨hb, complete_busy _ _, i, hi, hu⟩
  · rw [clockStep_idle hb] at h
    cases h
    rw [hs] at ht
    cases ht

/-- Settles O42, by the kinds of step: a completion step of the sequencer, or a command line's. -/
theorem doneIsSetByCompletionOnly : Obligations.DoneIsSetByCompletionOnly := by
  intro s t h hs ht
  rcases step_cases h with ⟨-, h⟩ | ⟨rest, ⟨w, i, hh, hi, h⟩ | ⟨w, -, -, rfl⟩ | ⟨idx, w, -, rfl⟩ | ⟨idx, -, rfl⟩ |
    ⟨-, h⟩ | ⟨-, rfl⟩⟩
  · exact .inl (clockStep_done h hs ht)
  · obtain ⟨hb, hb', hw⟩ := exec_done h hs ht
    exact .inr ⟨hb, hb', w, rest, i, hh, decodeWord_of_spelled hi hw⟩
  · exact absurd ht (by simp [hostWrite_done, hs])
  · exact absurd ht (by simp [hostWrite_done, hs])
  · exact absurd ht (by simp [hs])
  · exact .inl (clockStep_done (s := { s with host := rest }) h hs ht)
  · cases ht

end Sys2Proof.Machine

namespace Sys2Proof.Machine

/-! ## The buffer's canonical form (log 14) -/

theorem readByte_cons_self (a : Nat) (x : Byte) (m : Memory) : Memory.readByte ((a, x) :: m) a = x :=
  if_pos rfl

theorem readByte_cons_ne {a b : Nat} (h : b ≠ a) (x : Byte) (m : Memory) :
    Memory.readByte ((a, x) :: m) b = Memory.readByte m b := if_neg h

theorem wf_tail {c : Host.Cell} {m : Memory} (h : Memory.wf (c :: m)) : Memory.wf m :=
  ⟨(List.pairwise_cons.mp h.1).2, fun d hd => h.2 d (List.mem_cons_of_mem _ hd)⟩

/-- The first listed byte is not what an unlisted index reads as, and every index below it is unlisted. -/
theorem wf_head {a : Nat} {x : Byte} {m : Memory} (h : Memory.wf ((a, x) :: m)) :
    x ≠ Memory.unlisted ∧ ∀ b ≤ a, Memory.readByte m b = Memory.unlisted :=
  ⟨(h.2 _ (List.mem_cons_self ..)).2, fun _ hb =>
    readByte_of_lt fun c hc => Nat.lt_of_le_of_lt hb ((List.pairwise_cons.mp h.1).1 c hc)⟩

/-- A listed index of one of two buffers that read alike is not below every listed index of the other. -/
theorem head_le_of_readAlike {a b : Nat} {x y : Byte} {m m' : Memory} (hm : Memory.wf ((a, x) :: m))
    (hm' : Memory.wf ((b, y) :: m'))
    (h : ∀ k, Memory.readByte ((a, x) :: m) k = Memory.readByte ((b, y) :: m') k) : b ≤ a := by
  by_contra hlt
  have hlt : a < b := not_le.mp hlt
  have ha := h a
  rw [readByte_cons_self, readByte_cons_ne (Nat.ne_of_lt hlt), (wf_head hm').2 a hlt.le] at ha
  exact (wf_head hm).1 ha

/-- Settles O58, by induction on one of the buffers: the first entries are the same, and so are the rests. -/
theorem canonicalBuffersReadingAlikeAreEqual : Obligations.CanonicalBuffersReadingAlikeAreEqual := by
  intro m
  induction m with
  | nil =>
    intro m' _ hm' h
    cases m' with
    | nil => rfl
    | cons c m' =>
      obtain ⟨b, y⟩ := c
      have hb := h b
      rw [readByte_cons_self] at hb
      exact absurd hb.symm (wf_head hm').1
  | cons c m ih =>
    intro m' hm hm' h
    obtain ⟨a, x⟩ := c
    cases m' with
    | nil =>
      have ha := h a
      rw [readByte_cons_self] at ha
      exact absurd ha (wf_head hm).1
    | cons c m' =>
      obtain ⟨b, y⟩ := c
      obtain rfl : a = b :=
        le_antisymm (head_le_of_readAlike hm' hm fun k => (h k).symm) (head_le_of_readAlike hm hm' h)
      have hxy := h a
      rw [readByte_cons_self, readByte_cons_self] at hxy
      have hrest : m = m' := ih m' (wf_tail hm) (wf_tail hm') fun k => by
        by_cases hk : k = a
        · rw [hk, (wf_head hm).2 a le_rfl, (wf_head hm').2 a le_rfl]
        · simpa only [readByte_cons_ne hk] using h k
      rw [hxy, hrest]

/-- A buffer in the canonical form lists no index above 8. -/
theorem readByte_of_nine_le {m : Memory} (h : Memory.wf m) {a : Nat} (ha : 9 ≤ a) :
    Memory.readByte m a = Memory.unlisted := by
  induction m with
  | nil => rfl
  | cons c m ih =>
    obtain ⟨b, x⟩ := c
    have hb : b < 9 := (h.2 _ (List.mem_cons_self ..)).1
    rw [readByte_cons_ne (by omega), ih (wf_tail h)]

/-- The nine bytes of two states in the canonical form fix the buffers. -/
theorem scratch_eq_of_memRead {s t : State} (hs : Memory.wf s.scratch) (ht : Memory.wf t.scratch)
    (h : ∀ k, memRead k s = memRead k t) : s.scratch = t.scratch := by
  refine canonicalBuffersReadingAlikeAreEqual _ _ hs ht fun a => ?_
  by_cases ha : a < 9
  · exact h ⟨a, ha⟩
  · rw [readByte_of_nine_le hs (not_lt.mp ha), readByte_of_nine_le ht (not_lt.mp ha)]

/-! ## The host's reads (10_state.md R31 to R37) -/

/-- A read while idle gives the register (20_memory.md R62). -/
theorem hostRead_idle (idx : BitVec 5) {s : State} (hb : s.busy = false) :
    hostRead idx s = regValue (hostReg idx) s := by
  simp [hostRead, hb]

/-- A read of a register that is no result register gives it at any time. -/
theorem hostRead_always {idx : BitVec 5} (h : isResultReg (hostReg idx) = false) (s : State) :
    hostRead idx s = regValue (hostReg idx) s := by
  simp [hostRead, h]

/-- A register shown in a word of the host is the same number. -/
theorem toNat_zeroExtend {n : Nat} (h : n ≤ 32) (v : BitVec n) : (v.setWidth 32).toNat = v.toNat := by
  rw [BitVec.toNat_setWidth, Nat.mod_eq_of_lt (lt_of_lt_of_le v.isLt (Nat.pow_le_pow_right (by decide) h))]

theorem hostRead_scratch {idx : BitVec 5} {k : Fin 9} (h : idx.toNat = 16 + k.val) {s : State}
    (hb : s.busy = false) : (hostRead idx s).toNat = (memRead k s).toNat := by
  rw [hostRead_idle idx hb, hostReg_scratch h]
  exact toNat_zeroExtend (by decide) _

/-- Settles O45, register by register. -/
theorem hostReadFollowsTheRegisterMap : Obligations.HostReadFollowsTheRegisterMap := by
  intro s
  refine ⟨hostRead_always rfl s, hostRead_always rfl s, fun idx h => ?_, fun hb => ⟨?_, ?_, ?_, fun idx k h => ?_⟩⟩
  · have hr := hostReg_reserved h
    rw [hostRead_always (by rw [hr]; rfl), hr]
    rfl
  · rw [hostRead_idle _ hb]
    exact toNat_zeroExtend (by decide) s.acc
  · rw [hostRead_idle _ hb]
    exact toNat_zeroExtend (by decide) s.result
  · rw [hostRead_idle _ hb]
    exact toNat_zeroExtend (by decide) s.celsius
  · exact hostRead_scratch h hb

/-- A bit put below a word is bit 0. -/
theorem getLsbD_append_bit_zero {n : Nat} (x : BitVec n) (b : Bool) : (x ++ BitVec.ofBool b).getLsbD 0 = b := by
  rw [BitVec.getLsbD_append]
  simp

/-- The word's own bits stand one place higher. -/
theorem getLsbD_append_bit_succ {n : Nat} (x : BitVec n) (b : Bool) (i : Nat) :
    (x ++ BitVec.ofBool b).getLsbD (i + 1) = x.getLsbD i := by
  simp [BitVec.getLsbD_append]

/-- The five flags in STATUS (10_state.md R31). -/
theorem statusWord_bits (s : State) :
    (statusWord s).getLsbD 0 = s.busy ∧ (statusWord s).getLsbD 1 = s.done ∧ (statusWord s).getLsbD 2 = s.errArg ∧
    (statusWord s).getLsbD 3 = s.errCmd ∧ (statusWord s).getLsbD 4 = s.errBusy := by
  have below {n : Nat} (x : BitVec n) (b : Bool) (i : Nat) := getLsbD_append_bit_succ x b i
  have here {n : Nat} (x : BitVec n) (b : Bool) := getLsbD_append_bit_zero x b
  exact ⟨here _ _, (below _ _ 0).trans (here _ _), (below _ _ 1).trans ((below _ _ 0).trans (here _ _)),
    (below _ _ 2).trans ((below _ _ 1).trans ((below _ _ 0).trans (here _ _))),
    (below _ _ 3).trans ((below _ _ 2).trans ((below _ _ 1).trans ((below _ _ 0).trans (here _ _))))⟩

theorem statusWord_high (s : State) {i : Nat} (h : 5 ≤ i) : (statusWord s).getLsbD i = false := by
  obtain ⟨j, rfl⟩ := Nat.exists_eq_add_of_le' h
  calc (statusWord s).getLsbD (j + 5) = _ := getLsbD_append_bit_succ _ _ (j + 4)
    _ = _ := getLsbD_append_bit_succ _ _ (j + 3)
    _ = _ := getLsbD_append_bit_succ _ _ (j + 2)
    _ = _ := getLsbD_append_bit_succ _ _ (j + 1)
    _ = (0 : BitVec 27).getLsbD j := getLsbD_append_bit_succ _ _ j
    _ = false := BitVec.getLsbD_zero

/-- Settles O43. -/
theorem statusRegister : Obligations.StatusRegister := by
  intro s
  have hread : hostRead 0x01 s = statusWord s := hostRead_always rfl s
  obtain ⟨h0, h1, h2, h3, h4⟩ := statusWord_bits s
  have hclear (b f : Bool) : (f && !b) = if b then false else f := by cases b <;> simp
  rw [hread]
  refine ⟨h0, h1, h2, h3, h4, fun i hi => statusWord_high s hi, fun w => ?_⟩
  rw [hostWrite_status, clearFlags, hclear, hclear, hclear]

/-! ## The buffer at the host's port (10_state.md R35) -/

theorem scrIndex_toNat (k : Fin 9) : (scrIndex k).toNat = 16 + k.val := by
  have := k.isLt
  rw [scrIndex, BitVec.toNat_ofNat]
  omega

/-- A write to SCRATCHk while idle stores the low byte of the word. -/
theorem hostWrite_scratch (k : Fin 9) (w : Word) {s : State} (hb : s.busy = false) :
    hostWrite (scrIndex k) w s = memWrite k (w.extractLsb' 0 8) s := by
  rw [hostWrite, hostReg_scratch (scrIndex_toNat k)]
  simp [hb, idleWrite]

theorem lowByte_toNat (w : Word) : (w.extractLsb' 0 8).toNat = w.toNat % 256 := by
  rw [BitVec.extractLsb'_toNat, Nat.shiftRight_zero]

/-- Settles O48: a read after a write of the buffer. -/
theorem scratchWriteThenRead : Obligations.ScratchWriteThenRead := by
  intro k j w s hb hm
  rw [hostWrite_scratch k w hb, hostRead_scratch (scrIndex_toNat j) ((memWrite_busy ..).trans hb),
    memRead_memWrite hm]
  rw [apply_ite BitVec.toNat, lowByte_toNat]
  exact ⟨rfl, wf_memWrite hm k _⟩

end Sys2Proof.Machine

namespace Sys2Proof.Machine

/-! ## The reset table (10_state.md R44), and `upc` at the end of a command (R27) -/

/-- Settles O1, field by field. -/
theorem resetStateIsTheResetTable : Obligations.ResetStateIsTheResetTable := by
  unfold Obligations.ResetStateIsTheResetTable
  simp [State.reset, memRead, Memory.readByte, Memory.unlisted, State.trace]

/-- Settles O51: each micro-program has its row's length, and `upc` counts its micro-steps. -/
theorem microProgramLengths : Obligations.MicroProgramLengths := by
  refine ⟨microProgram_length, fun i s t hw hb ht => ?_⟩
  cases (exec_started hw hb).symm.trans ht
  rw [complete_upc, runSteps_started_upc (microProgram_length_le i), microProgram_length]

/-! ## Which command writes which register (10_state.md R21 to R40) -/

/-- No command but GET_TEMP stores a byte in the buffer. -/
theorem runSteps_scratch_of_ne_getTemp {i : Instr} (h : ∀ v, i ≠ .getTemp v) (s : State) :
    (runSteps (microProgram i) s).scratch = s.scratch := by
  cases i with
  | getTemp v => exact absurd rfl (h v)
  | setInput | setOutput | writeLevel | delay | decode => rfl
  | readLevel => exact runStep_scratch s _
  | owReset =>
    obtain ⟨_, rfl, -, -, -, -, hs⟩ := run_owReset s
    exact hs
  | owWriteBit b =>
    obtain ⟨_, rfl, -, -, -, -, hs⟩ := run_writeSlot b s
    exact hs
  | owReadBit =>
    obtain ⟨_, _, rfl, -, -, -, -, -, hs⟩ := run_readSlot .whole false none s
    exact hs
  | owWriteByte v =>
    obtain ⟨_, rfl, -, -, -, -, hs⟩ := run_writeByte v s
    exact hs
  | owReadByte =>
    obtain ⟨_, _, -, rfl, -, -, -, -, -, hs⟩ := run_readByte none s
    exact hs

/-- A command that reads no level leaves the accumulator as it was. -/
theorem runSteps_acc_of_noRead {i : Instr} (hg : ∀ v, i ≠ .getTemp v) (hl : i ≠ .readLevel) (hb : i ≠ .owReadBit)
    (hy : i ≠ .owReadByte) (s : State) : (runSteps (microProgram i) s).acc = s.acc := by
  cases i with
  | getTemp v => exact absurd rfl (hg v)
  | readLevel => exact absurd rfl hl
  | owReadBit => exact absurd rfl hb
  | owReadByte => exact absurd rfl hy
  | setInput | setOutput | writeLevel | delay | decode => rfl
  | owReset =>
    obtain ⟨_, rfl, -, -, -, ha, -⟩ := run_owReset s
    exact ha
  | owWriteBit b =>
    obtain ⟨_, rfl, -, -, -, ha, -⟩ := run_writeSlot b s
    exact ha
  | owWriteByte v =>
    obtain ⟨_, rfl, -, -, -, ha, -⟩ := run_writeByte v s
    exact ha

/-- Only WRITE_LEVEL and the one-wire operations write the latch. -/
theorem lastLevel_eq_none {i : Instr} (ho : isOneWire i = false) (hl : ∀ l, i ≠ .writeLevel l) :
    lastLevel (microProgram i) = none := by
  cases i with
  | writeLevel l => exact absurd rfl (hl l)
  | setInput | setOutput | readLevel | delay | decode => rfl
  | owReset | owWriteBit | owReadBit | owWriteByte | owReadByte | getTemp => exact absurd ho (by simp [isOneWire])

/-- Only SET_INPUT, SET_OUTPUT and the one-wire operations set the direction. -/
theorem lastDir_eq_none {i : Instr} (ho : isOneWire i = false) (hi : i ≠ .setInput) (hout : i ≠ .setOutput) :
    lastDir (microProgram i) = none := by
  cases i with
  | setInput => exact absurd rfl hi
  | setOutput => exact absurd rfl hout
  | writeLevel | readLevel | delay | decode => rfl
  | owReset | owWriteBit | owReadBit | owWriteByte | owReadByte | getTemp => exact absurd ho (by simp [isOneWire])

/-- Only GET_TEMP and DECODE decode. -/
theorem finalDecode_eq_none {i : Instr} (hg : ∀ v, i ≠ .getTemp v) (hd : ∀ v, i ≠ .decode v) :
    finalDecode i = none := by
  cases i with
  | getTemp v => exact absurd rfl (hg v)
  | decode v => exact absurd rfl (hd v)
  | _ => rfl

/-- Settles O50: a refused command writes `errArg` alone, and a completed one what its micro-program and its
completion step write. -/
theorem commandsWriteOnlyTheirRegisters : Obligations.CommandsWriteOnlyTheirRegisters := by
  intro i s t ⟨hb, hd⟩ ht
  cases hw : i.wellFormed with
  | false =>
    cases (exec_badArg hw hb).symm.trans ht
    simp [hb, hd]
  | true =>
    cases (exec_started hw hb).symm.trans ht
    have hmoved : Moved (started i s) (runSteps (microProgram i) (started i s)) := runSteps_moved _ _
    refine ⟨?_, ?_, fun _ => ?_, ?_, ?_, ?_, ?_, complete_busy _ _, fun hg a => ?_, fun hg hdec => ?_,
      fun hg hl hbit hy => ?_, fun ho hl => ?_, fun ho hi hout => ?_⟩
    · rw [complete_errCmd, hmoved]
      rfl
    · rw [complete_errBusy, hmoved]
      rfl
    · rw [complete_errArg, hmoved]
      rfl
    · rw [complete_host, hmoved]
      rfl
    · rw [complete_hostLog, hmoved]
      rfl
    · rw [complete_hostDraws, hmoved]
      rfl
    · rw [complete_dlyCnt]
      exact runSteps_dlyCnt _ hd
    · rw [complete_scratch, runSteps_scratch_of_ne_getTemp hg]
      rfl
    · rw [finalDecode_eq_none hg hdec, hmoved]
      exact ⟨rfl, rfl⟩
    · rw [complete_acc, runSteps_acc_of_noRead hg hl hbit hy]
      rfl
    · rw [complete_out, runSteps_out, lastLevel_eq_none ho hl]
      rfl
    · rw [complete_dir, runSteps_dir, lastDir_eq_none ho hi hout]
      rfl

/-! ## Results and stale data (10_state.md R47) -/

/-- The environment's answer, and what is left of its script, depend on the history of the line alone. -/
theorem oracle_congr {s t : State} (he : s.events = t.events) (hl : s.lineIn = t.lineIn) (hd : s.draws = t.draws) :
    (oracle s).1 = (oracle t).1 ∧ (oracle s).2.lineIn = (oracle t).2.lineIn ∧
      (oracle s).2.draws = (oracle t).2.draws := by
  cases hs : s.lineIn <;> simp [oracle, State.trace, ← hl, ← he, ← hd, hs]

/-- The accumulator after a micro-step. -/
theorem runStep_acc (s : State) (m : MicroStep) :
    (runStep s m).acc = match m.op with
      | .read sink => sinkAcc sink (beforeOp m s).acc (oracle s).1
      | _ => (beforeOp m s).acc := by
  obtain ⟨op, c, k⟩ := m
  cases op with
  | read sink =>
    cases hl : s.lineIn <;> cases c <;> cases k <;> cases sink <;>
      simp [runStep, finishOp, advance, afterOp, beforeOp, performOp, readOp, oracle, latchSample, memWrite, emit, hl,
        State.trace, sinkAcc]
  | _ => cases c <;> cases k <;> rfl

/-- The environment's script and its draws after a micro-step: only a `Read()` takes an answer. -/
theorem runStep_answers (s : State) (m : MicroStep) :
    ((runStep s m).lineIn, (runStep s m).draws) = match m.op with
      | .read _ => ((oracle s).2.lineIn, (oracle s).2.draws)
      | _ => (s.lineIn, s.draws) := by
  obtain ⟨op, c, k⟩ := m
  cases op with
  | read sink =>
    cases hl : s.lineIn <;> cases c <;> cases k <;> cases sink <;>
      simp [runStep, finishOp, advance, afterOp, beforeOp, performOp, readOp, oracle, latchSample, memWrite, emit, hl]
  | _ => cases c <;> cases k <;> rfl

/-- What is fixed by the history of the line and the environment: the accumulator, and bytes of the buffer. -/
structure Fixed where
  acc : Bool
  bytes : List (Fin 9)
deriving DecidableEq

/-- What a micro-step fixes: clearing the accumulator or loading a level fixes it, and a store fixes its byte when
the accumulator is fixed. -/
def Fixed.after (k : Fixed) (m : MicroStep) : Fixed :=
  let acc := k.acc || m.clearAcc || m.op == .read .whole
  { acc := acc
    bytes := match m.store with
      | none => k.bytes
      | some j => if acc then j :: k.bytes else k.bytes.filter (· ≠ j) }

/-- Two states with the same history of the line and the same environment, alike in what is fixed. -/
structure Alike (k : Fixed) (s t : State) : Prop where
  events : s.events = t.events
  lineIn : s.lineIn = t.lineIn
  draws : s.draws = t.draws
  acc : k.acc = true → s.acc = t.acc
  bytes : ∀ j ∈ k.bytes, memRead j s = memRead j t
  wf : Memory.wf s.scratch ∧ Memory.wf t.scratch

theorem beforeOp_acc (m : MicroStep) (s : State) : (beforeOp m s).acc = if m.clearAcc then 0 else s.acc := by
  unfold beforeOp
  split <;> rfl

/-- A micro-step of two states alike shows the same level, and takes the same answer. -/
theorem Alike.line {k : Fixed} {s t : State} (h : Alike k s t) (m : MicroStep) :
    (runStep s m).events = (runStep t m).events ∧ (runStep s m).lineIn = (runStep t m).lineIn ∧
      (runStep s m).draws = (runStep t m).draws := by
  obtain ⟨hlevel, hscript, hdraws⟩ := oracle_congr h.events h.lineIn h.draws
  have hs := runStep_answers s m
  have ht := runStep_answers t m
  rw [runStep_events, runStep_events, h.events]
  cases hop : m.op with
  | read sink =>
    simp only [hop, Prod.mk.injEq] at hs ht
    rw [hs.1, hs.2, ht.1, ht.2, hlevel]
    exact ⟨rfl, hscript, hdraws⟩
  | setInput | setOutput | write | delay =>
    simp only [hop, Prod.mk.injEq] at hs ht
    rw [hs.1, hs.2, ht.1, ht.2]
    exact ⟨rfl, h.lineIn, h.draws⟩

theorem Alike.acc_runStep {k : Fixed} {s t : State} (h : Alike k s t) {m : MicroStep}
    (hk : (k.after m).acc = true) : (runStep s m).acc = (runStep t m).acc := by
  obtain ⟨hlevel, -, -⟩ := oracle_congr h.events h.lineIn h.draws
  have hclear (hc : k.acc = true ∨ m.clearAcc = true) : (beforeOp m s).acc = (beforeOp m t).acc := by
    rw [beforeOp_acc, beforeOp_acc]
    rcases hc with hc | hc
    · rw [h.acc hc]
    · rw [if_pos hc, if_pos hc]
  rw [runStep_acc, runStep_acc, hlevel]
  by_cases hw : m.op = .read .whole
  · rw [hw]
    rfl
  · have hc : k.acc = true ∨ m.clearAcc = true := by simpa [Fixed.after, hw] using hk
    rw [hclear hc]

theorem memRead_runStep {s : State} (hm : Memory.wf s.scratch) (m : MicroStep) (j : Fin 9) :
    memRead j (runStep s m) = if m.store = some j then (runStep s m).acc else memRead j s := by
  rw [memRead, runStep_scratch]
  cases m.store with
  | none => rfl
  | some k => simp [readByte_writeByte hm.1, memRead, Fin.ext_iff, eq_comm]

/-- A micro-step keeps two states alike, and fixes what it fixes. -/
theorem Alike.after_runStep {k : Fixed} {s t : State} (h : Alike k s t) (m : MicroStep) :
    Alike (k.after m) (runStep s m) (runStep t m) := by
  obtain ⟨hevents, hscript, hdraws⟩ := h.line m
  refine ⟨hevents, hscript, hdraws, h.acc_runStep, fun j hj => ?_, wf_runStep h.wf.1 m, wf_runStep h.wf.2 m⟩
  rw [memRead_runStep h.wf.1, memRead_runStep h.wf.2]
  by_cases hst : m.store = some j
  · rw [if_pos hst, if_pos hst]
    refine h.acc_runStep ?_
    by_contra hacc
    have hacc : (k.after m).acc = false := by simpa using hacc
    simp only [Fixed.after] at hacc
    simp [Fixed.after, hst, hacc] at hj
  · rw [if_neg hst, if_neg hst]
    refine h.bytes j ?_
    simp only [Fixed.after] at hj
    split at hj
    · exact hj
    · rename_i i hi
      have hne : j ≠ i := fun e => hst (e ▸ hi)
      split at hj
      · exact (List.mem_cons.mp hj).resolve_left hne
      · exact (List.mem_filter.mp hj).1

theorem Alike.after_runSteps {k : Fixed} {s t : State} (h : Alike k s t) (p : List MicroStep) :
    Alike (p.foldl Fixed.after k) (runSteps p s) (runSteps p t) := by
  induction p generalizing k s t with
  | nil => exact h
  | cons m p ih => exact ih (h.after_runStep m)

/-- GET_TEMP fixes the accumulator and every byte of the buffer, whatever was there. -/
theorem fixed_getTemp :
    (getTempProgram.foldl Fixed.after ⟨false, []⟩).acc = true ∧
      ∀ j, j ∈ (getTempProgram.foldl Fixed.after ⟨false, []⟩).bytes := by
  decide +kernel

/-- What a completion step decodes depends on bytes 0 and 1 alone (43_temperature.md R180). -/
theorem complete_congr {s t : State} (u : TempUnit) (h0 : memRead 0 s = memRead 0 t) (h1 : memRead 1 s = memRead 1 t) :
    (complete (some u) s).celsius = (complete (some u) t).celsius ∧
      (complete (some u) s).result = (complete (some u) t).result := by
  simp only [complete, decodeStep_eq, finishFlags_celsius, finishFlags_result, h0, h1, and_self]

/-- What a one-wire operation leaves on the line does not depend on where it was. -/
theorem runSteps_line_oneWire {i : Instr} (h : isOneWire i = true) (s : State) :
    (runSteps (microProgram i) s).dir = .input ∧ (runSteps (microProgram i) s).out = .low := by
  rw [runSteps_dir, runSteps_out, lastDir_oneWire h, lastLevel_oneWire h]
  exact ⟨rfl, rfl⟩

/-- Two blocks with the same history of the line and the same environment, when they accept a command: nothing else
need be the same. -/
theorem alike_started {s t : State} (i : Instr) (he : s.events = t.events) (hl : s.lineIn = t.lineIn)
    (hd : s.draws = t.draws) (hs : Memory.wf s.scratch) (ht : Memory.wf t.scratch) :
    Alike ⟨false, []⟩ (started i s) (started i t) where
  events := he
  lineIn := hl
  draws := hd
  acc h := absurd h Bool.false_ne_true
  bytes _ hj := absurd hj List.not_mem_nil
  wf := ⟨hs, ht⟩

theorem Alike.trace {k : Fixed} {s t : State} (h : Alike k s t) : s.trace = t.trace := by
  rw [State.trace, State.trace, h.events]

/-- Settles O55: two blocks alike in nothing but the line's history and the environment are alike, after a
micro-program, in what it fixes. -/
theorem resultsDoNotDependOnStaleData : Obligations.ResultsDoNotDependOnStaleData := by
  intro s s' ⟨hb, _⟩ ⟨hb', _⟩ he hl hd hm hm'
  have alike (i : Instr) := (alike_started i he hl hd hm hm').after_runSteps (microProgram i)
  have line {i : Instr} (ho : isOneWire i = true) (f : Option TempUnit) (x : State) :
      (complete f (runSteps (microProgram i) x)).dir = .input ∧
        (complete f (runSteps (microProgram i) x)).out = .low := by
    rw [complete_dir, complete_out]
    exact runSteps_line_oneWire ho x
  refine ⟨fun i hi t t' ht ht' => ?_, fun v t t' hv ht ht' => ?_, fun v t t' hv h0 h1 ht ht' => ?_⟩
  · have hw : i.wellFormed = true := by rcases hi with rfl | rfl <;> rfl
    have ho : isOneWire i = true := by rcases hi with rfl | rfl <;> rfl
    have hfixed : ((microProgram i).foldl Fixed.after ⟨false, []⟩).acc = true := by
      rcases hi with rfl | rfl <;> decide
    cases (exec_started hw hb).symm.trans ht
    cases (exec_started hw hb').symm.trans ht'
    obtain ⟨hdir, hout⟩ := line ho (finalDecode i) (started i s)
    obtain ⟨hdir', hout'⟩ := line ho (finalDecode i) (started i s')
    rw [hdir, hout, hdir', hout', complete_acc, complete_acc, complete_trace, complete_trace]
    exact ⟨(alike i).acc hfixed, (alike i).trace, rfl, rfl⟩
  · obtain ⟨u, hu⟩ := Option.isSome_iff_exists.mp hv
    obtain ⟨hacc, hbytes⟩ := fixed_getTemp
    cases (exec_started (i := .getTemp v) hv hb).symm.trans ht
    cases (exec_started (i := .getTemp v) hv hb').symm.trans ht'
    have h := alike (.getTemp v)
    obtain ⟨hdir, hout⟩ := line (i := .getTemp v) rfl (some u) (started (.getTemp v) s)
    obtain ⟨hdir', hout'⟩ := line (i := .getTemp v) rfl (some u) (started (.getTemp v) s')
    have hread (j : Fin 9) := h.bytes j (hbytes j)
    obtain ⟨hcelsius, hresult⟩ := complete_congr u (hread 0) (hread 1)
    rw [finalDecode, hu, hdir, hout, hdir', hout', complete_acc, complete_acc, complete_trace, complete_trace,
      complete_scratch, complete_scratch]
    exact ⟨h.acc hacc, h.trace, scratch_eq_of_memRead h.wf.1 h.wf.2 hread, hcelsius, hresult, rfl, rfl⟩
  · obtain ⟨u, hu⟩ := Option.isSome_iff_exists.mp hv
    cases (exec_started (i := .decode v) hv hb).symm.trans ht
    cases (exec_started (i := .decode v) hv hb').symm.trans ht'
    obtain ⟨hcelsius, hresult⟩ := complete_congr (s := started (.decode v) s) (t := started (.decode v) s') u h0 h1
    rw [finalDecode, hu, complete_trace, complete_trace]
    exact ⟨hcelsius, hresult, (alike (.decode v)).trace⟩

end Sys2Proof.Machine

namespace Sys2Proof.Machine

/-! ## The host and a running command (20_memory.md R65) -/

/-- The sequencer's step looks at neither the error flags nor the host's side, and leaves them. -/
theorem seqStep_withOutside {s u : State} (h : seqStep s = .next u) (o : State) :
    seqStep (withOutside s o) = .next (withOutside u o) := by
  obtain ⟨i, hi, hu⟩ := seqStep_cases h
  have hstep : seqStep (withOutside s o) = commandStep i (withOutside s o) := seqStep_of_command hi
  rw [hstep, commandStep]
  rcases hu with ⟨m, hm, rfl⟩ | ⟨hend, rfl⟩
  · rw [show (microProgram i)[(withOutside s o).upc.toNat]? = some m from hm]
    exact congrArg Host.Outcome.next (microStep_withOutside m s o)
  · rw [show (microProgram i)[(withOutside s o).upc.toNat]? = none from List.getElem?_eq_none hend.ge]
    exact (if_pos hend).trans (congrArg Host.Outcome.next (complete_withOutside _ s o))

/-- The sequencer's step leaves the host's queue. -/
theorem seqStep_host {s u : State} (h : seqStep s = .next u) : u.host = s.host := by
  obtain ⟨i, -, ⟨m, -, rfl⟩ | ⟨-, rfl⟩⟩ := seqStep_cases h
  · exact host_of_moved (microStep_moved m s)
  · exact complete_host _ _

/-- While busy, a transaction changes the error flags and the host's own record only (20_memory.md R62, R63;
60_exceptions.md R203). -/
theorem hostStep_busy {a : HostAct} {s t : State} (hb : s.busy = true) (htick : a ≠ .tick) (hrst : a ≠ .rst)
    (h : hostStep a s = .next t) : t.host = s.host ∧ t = withOutside s t := by
  have hwrite (idx : BitVec 5) (w : Word) :
      (hostWrite idx w s).host = s.host ∧ hostWrite idx w s = withOutside s (hostWrite idx w s) := by
    by_cases hi : idx = 0x01
    · rw [hi]
      exact ⟨rfl, rfl⟩
    · rw [hostWrite_busy hi w hb]
      exact ⟨rfl, rfl⟩
  cases a with
  | command w =>
    rw [hostStep] at h
    split at h
    · cases (exec_busy hb).symm.trans h
      exact ⟨rfl, rfl⟩
    · cases h
      exact hwrite 0x00 w
  | write idx w =>
    cases h
    exact hwrite idx w
  | read idx =>
    cases h
    exact ⟨rfl, rfl⟩
  | tick => exact absurd rfl htick
  | rst => exact absurd rfl hrst

/-- Settles O49: what a transaction changes while busy is what the sequencer's step does not look at. -/
theorem hostCannotAlterARunningCommand : Obligations.HostCannotAlterARunningCommand := by
  intro a s t u hb htick hrst ht hu
  obtain ⟨hhost, houtside⟩ := hostStep_busy hb htick hrst ht
  have hqueue : t.host = u.host := hhost.trans (seqStep_host hu).symm
  calc seqStep t = seqStep (withOutside s t) := congrArg seqStep houtside
    _ = .next (withOutside u t) := seqStep_withOutside hu t
    _ = _ := by rw [withOutside, hqueue]

/-! ## The host's transactions (20_memory.md R62, R63) -/

/-- The registers a host write never moves (20_memory.md R63). -/
theorem hostReg_unwritable {idx : BitVec 5} (h : (2 ≤ idx.toNat ∧ idx.toNat ≤ 15) ∨ 25 ≤ idx.toNat) :
    hostReg idx = .data ∨ hostReg idx = .result ∨ hostReg idx = .celsius ∨ hostReg idx = .reserved := by
  revert idx
  decide

theorem hostWrite_unwritable {idx : BitVec 5} (h : (2 ≤ idx.toNat ∧ idx.toNat ≤ 15) ∨ 25 ≤ idx.toNat) (w : Word)
    {s : State} (hb : s.busy = false) : hostWrite idx w s = s := by
  rcases hostReg_unwritable h with hr | hr | hr | hr <;> simp [hostWrite, hr, hb, idleWrite]

/-- Settles O44, index by index. -/
theorem hostWriteFollowsItsRule : Obligations.HostWriteFollowsItsRule := by
  intro idx w s
  refine ⟨fun rest hh => step_cons hh, ?_, fun hi hb => hostWrite_busy hi w hb, fun hb => ⟨?_, fun k hk => ?_,
    fun hr => hostWrite_unwritable hr w hb⟩⟩
  · rintro rfl
    obtain ⟨-, -, -, -, -, -, hclear⟩ := statusRegister s
    exact hclear w
  · rintro rfl
    rw [hostWrite_cmd, cmdWrite, if_neg (by simp [hb])]
  · obtain rfl : idx = scrIndex k := BitVec.eq_of_toNat_eq (hk.trans (scrIndex_toNat k).symm)
    exact hostWrite_scratch k w hb

/-- Settles O47: the step is the host's action, and a read is no read of the queue. -/
theorem hostReadChangesNoState : Obligations.HostReadChangesNoState := by
  intro idx s rest hh
  exact ⟨hostReadStep idx { s with host := rest }, step_cons hh, rfl, rfl⟩

end Sys2Proof.Machine

namespace Sys2Proof.Machine

/-! ## Which command reaches the line and the buffer (20_memory.md R61) -/

/-- The micro-step neither reads the line nor stores to the buffer. -/
def NoReadNoStore (m : MicroStep) : Prop := (∀ k, m.op ≠ .read k) ∧ m.store = none

theorem noReadNoStore_owReset : ∀ m ∈ owResetProgram, NoReadNoStore m := by
  simp [owResetProgram, plain, NoReadNoStore]

theorem noReadNoStore_writeSlot (b : Bool) : ∀ m ∈ writeSlot b, NoReadNoStore m := by
  simp [writeSlot, plain, NoReadNoStore]

theorem noReadNoStore_writeByte (v : Byte) : ∀ m ∈ writeByteProgram v, NoReadNoStore m := fun m hm =>
  have ⟨_, _, h⟩ := List.mem_flatMap.mp hm
  noReadNoStore_writeSlot _ m h

theorem store_readSlot (sink : Sink) (c : Bool) : ∀ m ∈ readSlot sink c none, m.store = none := by
  simp [readSlot, plain]

/-- A byte read on its own stores nothing (42_onewire_byte.md R163). -/
theorem store_readByte : ∀ m ∈ readByteProgram none, m.store = none := by
  intro m hm
  obtain ⟨i, -, h⟩ := List.mem_flatMap.mp hm
  rw [ite_self] at h
  exact store_readSlot _ _ m h

theorem mem_byteOrder (k : Fin 9) : k ∈ byteOrder := by
  revert k
  decide

/-- What a byte read at index `k` performs is part of GET_TEMP (43_temperature.md R171). -/
theorem mem_getTemp_of_readByte {k : Fin 9} {m : MicroStep} (h : m ∈ readByteProgram (some k)) :
    m ∈ getTempProgram :=
  List.mem_append_right _ (List.mem_flatMap.mpr ⟨k, mem_byteOrder k, h⟩)

/-- All but DELAY, READ_LEVEL and DECODE begin with an operation on the line. -/
theorem microProgram_changesLine_iff (i : Instr) :
    (∃ m ∈ microProgram i, m.op = .setInput ∨ m.op = .setOutput ∨ ∃ l, m.op = .write l) ↔
      (∀ n, i ≠ .delay n) ∧ i ≠ .readLevel ∧ ∀ v, i ≠ .decode v := by
  cases i with
  | delay | readLevel | decode =>
    simp [microProgram, delayProgram, readLevelProgram, plain]
  | setInput => exact iff_of_true ⟨_, List.mem_cons_self, .inl rfl⟩ (by simp)
  | writeLevel l => exact iff_of_true ⟨_, List.mem_cons_self, .inr (.inr ⟨l, rfl⟩)⟩ (by simp)
  | setOutput | owReset | owWriteBit | owReadBit | owWriteByte | owReadByte | getTemp =>
    exact iff_of_true ⟨_, List.mem_cons_self, .inr (.inl rfl)⟩ (by simp)

theorem microProgram_reads_iff (i : Instr) :
    (∃ m ∈ microProgram i, ∃ k, m.op = .read k) ↔
      i = .readLevel ∨ i = .owReadBit ∨ i = .owReadByte ∨ ∃ v, i = .getTemp v := by
  have none_of {p : List MicroStep} (h : ∀ m ∈ p, NoReadNoStore m) : ¬ ∃ m ∈ p, ∃ k, m.op = .read k :=
    fun ⟨m, hm, k, hk⟩ => (h m hm).1 k hk
  cases i with
  | setInput | setOutput | writeLevel | delay | decode =>
    simp [microProgram, setInputProgram, setOutputProgram, writeLevelProgram, delayProgram, plain]
  | owReset => exact iff_of_false (none_of noReadNoStore_owReset) (by simp)
  | owWriteBit b => exact iff_of_false (none_of (noReadNoStore_writeSlot b)) (by simp)
  | owWriteByte v => exact iff_of_false (none_of (noReadNoStore_writeByte v)) (by simp)
  | readLevel => exact iff_of_true ⟨_, List.mem_cons_self, .whole, rfl⟩ (by simp)
  | owReadBit => exact iff_of_true ⟨plain (.read .whole), by decide, .whole, rfl⟩ (by simp)
  | owReadByte => exact iff_of_true ⟨plain (.read (.bit 0)), by decide, .bit 0, rfl⟩ (by simp)
  | getTemp v =>
    have hmem : plain (.read (.bit 0)) ∈ readByteProgram (some 0) := by decide
    exact iff_of_true ⟨_, mem_getTemp_of_readByte hmem, .bit 0, rfl⟩ (by simp)

theorem microProgram_stores_iff (i : Instr) : (∃ m ∈ microProgram i, m.store ≠ none) ↔ ∃ v, i = .getTemp v := by
  have none_of {p : List MicroStep} (h : ∀ m ∈ p, m.store = none) : ¬ ∃ m ∈ p, m.store ≠ none :=
    fun ⟨m, hm, hs⟩ => hs (h m hm)
  cases i with
  | setInput | setOutput | writeLevel | readLevel | delay | decode =>
    simp [microProgram, setInputProgram, setOutputProgram, writeLevelProgram, readLevelProgram, delayProgram, plain]
  | owReset => exact iff_of_false (none_of fun m h => (noReadNoStore_owReset m h).2) (by simp)
  | owWriteBit b => exact iff_of_false (none_of fun m h => (noReadNoStore_writeSlot b m h).2) (by simp)
  | owReadBit => exact iff_of_false (none_of (store_readSlot _ _)) (by simp)
  | owWriteByte v => exact iff_of_false (none_of fun m h => (noReadNoStore_writeByte v m h).2) (by simp)
  | owReadByte => exact iff_of_false (none_of store_readByte) (by simp)
  | getTemp v =>
    have hmem : { op := .delay Config.tRRest, store := some 0 } ∈ readByteProgram (some 0) := by decide
    exact iff_of_true ⟨_, mem_getTemp_of_readByte hmem, by simp⟩ (by simp)

/-- Settles O52, space by space. -/
theorem commandsReachTheirSpaces : Obligations.CommandsReachTheirSpaces := fun i =>
  ⟨microProgram_changesLine_iff i, microProgram_reads_iff i, microProgram_stores_iff i⟩

/-! ## Samples of the one-wire operations (20_memory.md R71) -/

/-- No High is driven, and before each sample the last direction set is In. -/
def SampledReleased (es : List Event) : Prop :=
  .drive .high ∉ es ∧ ∀ pre l post, es = pre ++ .sample l :: post → ∃ a b, pre = a ++ .dirIn :: b ∧ .dirOut ∉ b

theorem SampledReleased.append {e1 e2 : List Event} (h1 : SampledReleased e1) (h2 : SampledReleased e2) :
    SampledReleased (e1 ++ e2) := by
  refine ⟨fun h => (List.mem_append.mp h).elim h1.1 h2.1, fun pre l post h => ?_⟩
  rcases List.append_eq_append_iff.mp h with ⟨mid, rfl, he⟩ | ⟨mid, rfl, he⟩
  · obtain ⟨a, b, rfl, hb⟩ := h2.2 mid l post he
    exact ⟨e1 ++ a, b, by simp, hb⟩
  · cases mid with
    | nil =>
      obtain ⟨a, b, hab, -⟩ := h2.2 [] l post he.symm
      simp at hab
    | cons e mid =>
      obtain ⟨rfl, -⟩ := List.cons.inj he
      exact h1.2 pre l mid rfl

/-- Events without a sample. -/
theorem sampledReleased_of_noSample {es : List Event} (hd : .drive .high ∉ es) (hs : ∀ l, .sample l ∉ es) :
    SampledReleased es :=
  ⟨hd, fun pre l _ h => absurd (h ▸ List.mem_append_right pre List.mem_cons_self) (hs l)⟩

theorem sampledReleased_readSlot (l : Level) : SampledReleased (readSlotEvents l) := by
  refine ⟨by simp [readSlotEvents], fun pre l' post h => ?_⟩
  have hsplit : [.dirOut, .drive .low, .wait 1, .dirIn, .wait 15] ++ .sample l :: [.wait 44] =
      pre ++ .sample l' :: post := h
  obtain ⟨rfl, -⟩ := (List.append_cons_inj_of_notMem (by simp) (by simp)).mp hsplit
  exact ⟨[.dirOut, .drive .low, .wait 1], [.wait 15], rfl, by simp⟩

/-- Whatever the state, the micro-program drives no High and samples only while released. -/
def SamplesReleased (p : List MicroStep) : Prop :=
  ∀ s, ∃ es, (runSteps p s).trace = s.trace ++ es ∧ SampledReleased es

theorem Ran.trace {es : List Event} {n : Nat} {s t : State} (h : Ran es n s t) : t.trace = s.trace ++ es := by
  simp [State.trace, h.events]

theorem samplesReleased_nil : SamplesReleased [] := fun s =>
  ⟨[], by simp, sampledReleased_of_noSample (by simp) (by simp)⟩

theorem SamplesReleased.append {p q : List MicroStep} (hp : SamplesReleased p) (hq : SamplesReleased q) :
    SamplesReleased (p ++ q) := by
  intro s
  obtain ⟨e1, ht1, h1⟩ := hp s
  obtain ⟨e2, ht2, h2⟩ := hq (runSteps p s)
  exact ⟨e1 ++ e2, by rw [runSteps_append, ht2, ht1, List.append_assoc], h1.append h2⟩

theorem samplesReleased_flatMap {α : Type} (l : List α) {f : α → List MicroStep} (h : ∀ x, SamplesReleased (f x)) :
    SamplesReleased (l.flatMap f) := by
  induction l with
  | nil => exact samplesReleased_nil
  | cons x l ih => exact (h x).append ih

theorem samplesReleased_owReset : SamplesReleased owResetProgram := by
  intro s
  obtain ⟨_, rfl, hran, -⟩ := run_owReset s
  exact ⟨_, hran.trace, sampledReleased_of_noSample (by decide) (by simp [resetEvents])⟩

theorem samplesReleased_writeSlot (b : Bool) : SamplesReleased (writeSlot b) := by
  intro s
  obtain ⟨_, rfl, hran, -⟩ := run_writeSlot b s
  refine ⟨_, hran.trace, sampledReleased_of_noSample ?_ ?_⟩ <;> cases b <;> simp [writeSlotEvents]

theorem samplesReleased_readSlot (sink : Sink) (c : Bool) (k : Option (Fin 9)) :
    SamplesReleased (readSlot sink c k) := by
  intro s
  obtain ⟨l, _, rfl, -, hran, -⟩ := run_readSlot sink c k s
  exact ⟨_, hran.trace, sampledReleased_readSlot l⟩

theorem samplesReleased_delay (n : Nat) : SamplesReleased [plain (.delay n)] := by
  intro s
  obtain ⟨_, rfl, hran, -⟩ := run_delay n s
  exact ⟨_, hran.trace, sampledReleased_of_noSample (by simp) (by simp)⟩

theorem samplesReleased_writeByte (v : Byte) : SamplesReleased (writeByteProgram v) :=
  samplesReleased_flatMap _ fun _ => samplesReleased_writeSlot _

theorem samplesReleased_readByte (k : Option (Fin 9)) : SamplesReleased (readByteProgram k) :=
  samplesReleased_flatMap _ fun _ => samplesReleased_readSlot _ _ _

theorem samplesReleased_getTemp : SamplesReleased getTempProgram :=
  ((((((samplesReleased_owReset.append (samplesReleased_writeByte _)).append (samplesReleased_writeByte _)).append
    (samplesReleased_delay _)).append samplesReleased_owReset).append (samplesReleased_writeByte _)).append
    (samplesReleased_writeByte _)).append (samplesReleased_flatMap _ fun _ => samplesReleased_readByte _)

theorem samplesReleased_oneWire {i : Instr} (h : isOneWire i = true) : SamplesReleased (microProgram i) := by
  cases i with
  | owReset => exact samplesReleased_owReset
  | owWriteBit b => exact samplesReleased_writeSlot b
  | owReadBit => exact samplesReleased_readSlot _ _ _
  | owWriteByte v => exact samplesReleased_writeByte v
  | owReadByte => exact samplesReleased_readByte none
  | getTemp => exact samplesReleased_getTemp
  | setInput | setOutput | writeLevel | readLevel | delay | decode => exact absurd h Bool.false_ne_true

/-- Settles O53: a refused command appends nothing, and a completed one what its micro-program does. -/
theorem oneWireSamplesAreTakenReleased : Obligations.OneWireSamplesAreTakenReleased := by
  intro i s t ho ⟨hb, _⟩ ht
  cases hw : i.wellFormed with
  | false =>
    cases (exec_badArg hw hb).symm.trans ht
    exact ⟨[], (List.append_nil _).symm, sampledReleased_of_noSample (by simp) (by simp)⟩
  | true =>
    cases (exec_started hw hb).symm.trans ht
    rw [complete_trace]
    exact samplesReleased_oneWire ho (started i s)

end Sys2Proof.Machine

namespace Sys2Proof.Machine

/-! ## What a word means (30_encoding.md R90 to R95) -/

/-- Settles O7: `decodeWord_encode`, the decoder on the word of each of the twelve commands. -/
theorem decodeOfEncodeIsTheCommand : Obligations.DecodeOfEncodeIsTheCommand := decodeWord_encode

/-- Whatever command a decoder's answer names is one that the word of `op` and `arg` is the encoding of. -/
def Spells (op : Byte) (arg : BitVec 16) (d : Decoded) : Prop :=
  ∀ i, d = .ok i ∨ d = .badArg i → encode i = commandWord op arg

section
variable {op : Byte} {arg : BitVec 16}

theorem spells_illegal (why : IllegalWord) : Spells op arg (.illegal why) := by
  rintro i (h | h) <;> cases h

theorem spells_ok {i : Instr} (h : encode i = commandWord op arg) : Spells op arg (.ok i) := by
  rintro j (hj | hj) <;> cases hj
  exact h

theorem spells_ite {p : Prop} [Decidable p] {d e : Decoded} (hd : p → Spells op arg d) (he : Spells op arg e) :
    Spells op arg (if p then d else e) := by
  split
  · exact hd ‹p›
  · exact he

theorem spells_formatN {i : Instr} (h : encode i = commandWord op 0) : Spells op arg (formatN arg i) := fun j hj => by
  obtain ⟨rfl, rfl⟩ := formatN_inv hj
  exact h

theorem spells_formatB {f : Bool → Instr} (h : ∀ b, encode (f b) = commandWord op ((BitVec.ofBool b).setWidth 16)) :
    Spells op arg (formatB arg f) := fun j hj => by
  obtain ⟨b, rfl, rfl⟩ := formatB_inv hj
  exact h b

theorem spells_formatY {f : Byte → Decoded} (h : ∀ v, Spells op (v.setWidth 16) (f v)) :
    Spells op arg (formatY arg f) := fun j hj => by
  obtain ⟨v, hv, rfl⟩ := formatY_inv hj
  exact h v j hv

theorem spells_checkArg {i : Instr} (h : encode i = commandWord op arg) : Spells op arg (checkArg i) := fun j hj => by
  rw [checkArg_inv hj]
  exact h

end

/-- The decoder's case on the opcode names a command of that opcode and operand, or none (30_encoding.md R95). -/
theorem spells_decodeOp (op : Byte) (arg : BitVec 16) : Spells op arg (decodeOp op arg) :=
  spells_ite (fun h => h ▸ spells_formatN rfl) <|
  spells_ite (fun h => h ▸ spells_formatN rfl) <|
  spells_ite (fun h => h ▸ spells_formatB fun b => by simp [encode, opRow, argOf]) <|
  spells_ite (fun h => h ▸ spells_formatN rfl) <|
  spells_ite (fun h => h ▸ spells_ok rfl) <|
  spells_ite (fun h => h ▸ spells_formatN rfl) <|
  spells_ite (fun h => h ▸ spells_formatB fun _ => rfl) <|
  spells_ite (fun h => h ▸ spells_formatN rfl) <|
  spells_ite (fun h => h ▸ spells_formatY fun _ => spells_ok rfl) <|
  spells_ite (fun h => h ▸ spells_formatN rfl) <|
  spells_ite (fun h => h ▸ spells_formatY fun _ => spells_checkArg rfl) <|
  spells_ite (fun h => h ▸ spells_formatY fun _ => spells_checkArg rfl) <|
  spells_illegal _

theorem encode_of_decodeWord {w : Word} {i : Instr} (h : decodeWord w = .ok i ∨ decodeWord w = .badArg i) :
    encode i = w := by
  have hr : rsvField w = 0 := by
    by_contra hr
    rw [decodeWord, if_pos hr] at h
    rcases h with h | h <;> cases h
  rw [← commandWord_fields hr] at h ⊢
  rw [decodeWord_commandWord] at h
  exact spells_decodeOp _ _ i h

/-- Settles O8: `encode_of_decodeWord`, by the decoder's case on the opcode and the formats' inversion lemmas. -/
theorem encodeOfDecodeIsTheWord : Obligations.EncodeOfDecodeIsTheWord := fun _ _ => encode_of_decodeWord

/-- The command a word spells is the one it is the encoding of. -/
theorem spelled_eq_some_iff {w : Word} {i : Instr} : spelled w = some i ↔ encode i = w := by
  refine ⟨fun h => encode_of_decodeWord (spelled_eq_some h), ?_⟩
  rintro rfl
  rw [spelled, decodeWord_encode]
  cases i.wellFormed <;> rfl

/-- The words that spell no command are those no command is encoded by. -/
theorem decodeWord_illegal_iff {w : Word} : (∃ why, decodeWord w = .illegal why) ↔ ∀ i, encode i ≠ w := by
  constructor
  · rintro ⟨why, h⟩ i rfl
    rw [decodeWord_encode] at h
    split at h <;> cases h
  · intro h
    cases hd : decodeWord w with
    | ok i => exact absurd (encode_of_decodeWord (.inl hd)) (h i)
    | badArg i => exact absurd (encode_of_decodeWord (.inr hd)) (h i)
    | illegal why => exact ⟨why, rfl⟩

/-! ## The opcode map (30_encoding.md R93) -/

/-- The table holds the row of every command. -/
theorem opRow_mem (i : Instr) : opRow i ∈ opcodeTable := by
  cases i <;> simp [opcodeTable, opRow]

/-- The table holds nothing but rows of commands. -/
theorem exists_opRow {r : OpRow} (h : r ∈ opcodeTable) : ∃ i, opRow i = r := by
  obtain ⟨i, -, hi⟩ := List.mem_map.mp h
  exact ⟨i, hi⟩

/-- Every row fixes the opcode and the reserved bits whole, and asks for no operand bit to be 1. -/
theorem opcodeTable_fields : ∀ r ∈ opcodeTable,
    opField r.mask = BitVec.allOnes 8 ∧ rsvField r.mask = BitVec.allOnes 8 ∧ r.bits = commandWord r.op 0 := by
  decide

theorem opRow_matches_encode (i : Instr) : (opRow i).matches (encode i) = true := by
  cases i with
  | setInput => exact Laws.EncodeRow.setInput
  | setOutput => exact Laws.EncodeRow.setOutput
  | writeLevel l => exact Laws.EncodeRow.writeLevel l
  | readLevel => exact Laws.EncodeRow.readLevel
  | delay n => exact Laws.EncodeRow.delay n
  | owReset => exact Laws.EncodeRow.owReset
  | owWriteBit b => exact Laws.EncodeRow.owWriteBit b
  | owReadBit => exact Laws.EncodeRow.owReadBit
  | owWriteByte v => exact Laws.EncodeRow.owWriteByte v
  | owReadByte => exact Laws.EncodeRow.owReadByte
  | getTemp v => exact Laws.EncodeRow.getTemp v
  | decode v => exact Laws.EncodeRow.decode v

theorem opField_and (w m : Word) : opField (w &&& m) = opField w &&& opField m := BitVec.extractLsb'_and

theorem rsvField_and (w m : Word) : rsvField (w &&& m) = rsvField w &&& rsvField m := BitVec.extractLsb'_and

theorem argField_and (w m : Word) : argField (w &&& m) = argField w &&& argField m := BitVec.extractLsb'_and

/-- A word that a row matches has the row's opcode, and an operand with no bit under the row's mask. -/
theorem word_of_matches {r : OpRow} (hr : r ∈ opcodeTable) {w : Word} (h : r.matches w = true) :
    commandWord r.op (argField w) = w ∧ argField w &&& argField r.mask = 0 := by
  obtain ⟨hop, hrsv, hbits⟩ := opcodeTable_fields r hr
  have hw : w &&& r.mask = commandWord r.op 0 := (eq_of_beq h).trans hbits
  have op : opField w = r.op := by
    rw [← opField_commandWord r.op 0, ← hw, opField_and, hop, BitVec.and_allOnes]
  have rsv : rsvField w = 0 := by
    rw [← rsvField_commandWord r.op 0, ← hw, rsvField_and, hrsv, BitVec.and_allOnes]
  have arg : argField w &&& argField r.mask = 0 := by
    rw [← argField_and, hw, argField_commandWord]
  exact ⟨op ▸ commandWord_fields rsv, arg⟩

/-- Bits that a mask shows to be 0. -/
theorem extractLsb'_eq_zero_of_and {arg m : BitVec 16} (h : arg &&& m = 0) {k n : Nat}
    (hm : m.extractLsb' k n = BitVec.allOnes n) : arg.extractLsb' k n = 0 := by
  rw [← BitVec.and_allOnes (x := arg.extractLsb' k n), ← hm, ← BitVec.extractLsb'_and, h]
  exact BitVec.extractLsb'_zero

/-- Format N has no operand (30_encoding.md R91). -/
theorem operand_formatN {arg m : BitVec 16} (h : arg &&& m = 0) (hm : m = BitVec.allOnes 16) : arg = 0 := by
  rwa [hm, BitVec.and_allOnes] at h

/-- Format B's operand is a bit (30_encoding.md R91). -/
theorem operand_formatB {arg m : BitVec 16} (h : arg &&& m = 0) (hm : m.extractLsb' 1 15 = BitVec.allOnes 15) :
    ∃ b, arg = (BitVec.ofBool b).setWidth 16 := by
  have h : formatB arg .owWriteBit = .ok (.owWriteBit (arg.getLsbD 0)) := if_pos (extractLsb'_eq_zero_of_and h hm)
  obtain ⟨b, -, hb⟩ := formatB_inv (.inl h)
  exact ⟨b, hb⟩

/-- Format Y's operand is a byte (30_encoding.md R91). -/
theorem operand_formatY {arg m : BitVec 16} (h : arg &&& m = 0) (hm : m.extractLsb' 8 8 = BitVec.allOnes 8) :
    ∃ v : Byte, arg = v.setWidth 16 := by
  have h : formatY arg (fun v => .ok (.owWriteByte v)) = .ok (.owWriteByte (arg.extractLsb' 0 8)) :=
    if_pos (extractLsb'_eq_zero_of_and h hm)
  obtain ⟨v, -, hv⟩ := formatY_inv (.inl h)
  exact ⟨v, hv⟩

/-- Every operand that a row's mask lets through is the operand of a command of that row (30_encoding.md R93). -/
theorem exists_operand {i : Instr} {arg : BitVec 16} (h : arg &&& argField (opRow i).mask = 0) :
    ∃ j, opRow j = opRow i ∧ argOf j = arg := by
  cases i with dsimp only [opRow] at h
  | setInput | setOutput | readLevel | owReset | owReadBit | owReadByte =>
    obtain rfl := operand_formatN h (by decide)
    exact ⟨_, rfl, rfl⟩
  | writeLevel =>
    obtain ⟨b, rfl⟩ := operand_formatB h (by decide)
    exact ⟨.writeLevel (bitLevel b), rfl, by rw [argOf, levelBit_bitLevel]⟩
  | owWriteBit =>
    obtain ⟨b, rfl⟩ := operand_formatB h (by decide)
    exact ⟨.owWriteBit b, rfl, rfl⟩
  | delay => exact ⟨.delay arg, rfl, rfl⟩
  | owWriteByte =>
    obtain ⟨v, rfl⟩ := operand_formatY h (by decide)
    exact ⟨.owWriteByte v, rfl, rfl⟩
  | getTemp =>
    obtain ⟨v, rfl⟩ := operand_formatY h (by decide)
    exact ⟨.getTemp v, rfl, rfl⟩
  | decode =>
    obtain ⟨v, rfl⟩ := operand_formatY h (by decide)
    exact ⟨.decode v, rfl, rfl⟩

/-- A row matches exactly the words of its own commands. -/
theorem matches_iff {r : OpRow} (hr : r ∈ opcodeTable) {w : Word} :
    r.matches w = true ↔ ∃ i, opRow i = r ∧ encode i = w := by
  constructor
  · intro h
    obtain ⟨hw, harg⟩ := word_of_matches hr h
    obtain ⟨i, rfl⟩ := exists_opRow hr
    obtain ⟨j, hj, hjarg⟩ := exists_operand harg
    exact ⟨j, hj, by rw [encode, hj, hjarg, hw]⟩
  · rintro ⟨i, rfl, rfl⟩
    exact opRow_matches_encode i

/-- Settles O9: a row matches the words of its commands, and a word is the encoding of at most one command. -/
theorem illegalWordsMatchNoRow : Obligations.IllegalWordsMatchNoRow := by
  refine fun w => ⟨?_, fun i hi r hr => ?_⟩
  · rw [decodeWord_illegal_iff]
    constructor
    · intro h r hr
      rw [← Bool.not_eq_true, matches_iff hr]
      rintro ⟨i, -, hi⟩
      exact h i hi
    · rintro h i rfl
      exact absurd (opRow_matches_encode i) (by simp [h (opRow i) (opRow_mem i)])
  · rw [matches_iff hr]
    constructor
    · rintro ⟨j, rfl, hj⟩
      rw [Option.some.inj (hi.symm.trans (spelled_eq_some_iff.mpr hj))]
    · rintro rfl
      exact ⟨i, rfl, spelled_eq_some_iff.mp hi⟩

/-- Settles O10, by running the decoder on the thirteen words. -/
theorem wordsOfTheMapDecode : Obligations.WordsOfTheMapDecode := by
  unfold Obligations.WordsOfTheMapDecode
  decide

/-! ## A word at the host's port (30_encoding.md R96) -/

theorem hostWrite_cmd_idle (w : Word) {s : State} (hb : s.busy = false) :
    hostWrite 0x00 w s = commandWrite w { s with done := false } := by
  rw [hostWrite_cmd, cmdWrite, if_neg (by simp [hb])]

/-- Settles O40, by what the decoder answers: Ok, BadArg or Illegal. -/
theorem cmdWriteIsAcceptedOrRefused : Obligations.CmdWriteIsAcceptedOrRefused := by
  intro w s hb
  simp only [hostWrite_cmd_idle w hb]
  rcases commandWrite_cases w { s with done := false } with ⟨i, hi, e⟩ | ⟨i, hi, e⟩ | ⟨why, hi, e⟩ <;> rw [e]
  · exact .inl ⟨rfl, rfl, cmdWord_accept hi _, rfl, i, hi⟩
  · exact .inr ⟨hb, rfl, rfl, rfl, .inl ⟨rfl, i, hi⟩⟩
  · exact .inr ⟨hb, rfl, rfl, rfl, .inr ⟨rfl, why, hi⟩⟩

theorem hostStep_command_spelled {w : Word} {i : Instr} (h : spelled w = some i) (s : State) :
    hostStep (.command w) s = exec i s := by
  simp [hostStep, h]

theorem hostStep_command_unspelled {w : Word} (h : spelled w = none) (s : State) :
    hostStep (.command w) s = .next (hostWrite 0x00 w s) := by
  simp [hostStep, h]

/-- To place a command line that has been taken from the queue is to put it back. -/
theorem withFetchWord_rest {s : State} {w : Word} {rest : List HostAct} (h : s.host = .command w :: rest) :
    { s with host := rest }.withFetchWord 32 w.toNat = s := by
  have hw : BitVec.ofNat 32 (w.toNat % 2 ^ 32) = w := by
    rw [Nat.mod_eq_of_lt w.isLt, BitVec.ofNat_toNat, BitVec.setWidth_eq]
  simp only [State.withFetchWord, hw, ← h]

/-- Settles O11, by the step's rule for a command line. -/
theorem stepRunsTheSpelledCommand : Obligations.StepRunsTheSpelledCommand := by
  intro s w rest h
  rw [withFetchWord_rest h, step_cons h]
  exact ⟨fun i hi => hostStep_command_spelled hi _, fun hn => hostStep_command_unspelled hn _, rfl⟩

end Sys2Proof.Machine

namespace Sys2Proof.Machine

/-! ## The steps of the one-wire operations (41_onewire_bit.md, 42_onewire_byte.md, 43_temperature.md R171) -/

/-- A one-wire operation is made of bus resets, slots and the conversion wait: what holds of each of their micro-steps
holds of each of its own. -/
theorem forall_mem_oneWire {P : MicroStep → Prop} (hreset : ∀ m ∈ owResetProgram, P m)
    (hwrite : ∀ b, ∀ m ∈ writeSlot b, P m) (hread : ∀ sink c k, ∀ m ∈ readSlot sink c k, P m)
    (hconv : P (plain (.delay Config.tConv))) {i : Instr} (h : isOneWire i = true) : ∀ m ∈ microProgram i, P m := by
  have hwriteByte (v : Byte) : ∀ m ∈ writeByteProgram v, P m :=
    List.forall_mem_flatMap.mpr fun _ _ => hwrite _
  have hreadByte (k : Option (Fin 9)) : ∀ m ∈ readByteProgram k, P m :=
    List.forall_mem_flatMap.mpr fun _ _ => hread _ _ _
  cases i with
  | owReset => exact hreset
  | owWriteBit b => exact hwrite b
  | owReadBit => exact hread _ _ _
  | owWriteByte v => exact hwriteByte v
  | owReadByte => exact hreadByte none
  | getTemp =>
    simp only [microProgram, getTempProgram, List.forall_mem_append, List.forall_mem_singleton,
      List.forall_mem_flatMap]
    exact ⟨⟨⟨⟨⟨⟨⟨hreset, hwriteByte _⟩, hwriteByte _⟩, hconv⟩, hreset⟩, hwriteByte _⟩, hwriteByte _⟩,
      fun _ _ => hreadByte _⟩
  | setInput | setOutput | writeLevel | readLevel | delay | decode => exact absurd h Bool.false_ne_true

/-- Only WRITE_LEVEL ever drives High (40_line_and_delay.md R123). -/
theorem microProgram_ne_writeHigh {i : Instr} (h : ∀ l, i ≠ .writeLevel l) :
    ∀ m ∈ microProgram i, m.op ≠ .write .high := by
  cases i with
  | writeLevel l => exact absurd rfl (h l)
  | setInput | setOutput | readLevel | delay | decode =>
    simp [microProgram, setInputProgram, setOutputProgram, readLevelProgram, delayProgram, plain]
  | owReset | owWriteBit | owReadBit | owWriteByte | owReadByte | getTemp =>
    exact forall_mem_oneWire (by simp [owResetProgram, plain]) (by simp [writeSlot, plain])
      (by simp [readSlot, plain]) (by simp [plain]) rfl

/-- No `Delay` clears the accumulator: a byte read does so in the first step of its first slot
(42_onewire_byte.md R163). -/
theorem clearAcc_of_delay (i : Instr) : ∀ m ∈ microProgram i, ∀ n, m.op = .delay n → m.clearAcc = false := by
  cases i with
  | setInput | setOutput | writeLevel | readLevel | delay | decode =>
    simp [microProgram, setInputProgram, setOutputProgram, writeLevelProgram, readLevelProgram, delayProgram, plain]
  | owReset | owWriteBit | owReadBit | owWriteByte | owReadByte | getTemp =>
    exact forall_mem_oneWire (by simp [owResetProgram, plain]) (by simp [writeSlot, plain])
      (by simp [readSlot, plain]) (by simp [plain]) rfl

/-! ## Refused operands (30_encoding.md R91, R94) -/

theorem formatN_illegal {arg : BitVec 16} (h : arg ≠ 0) (i : Instr) : formatN arg i = .illegal .operandBits :=
  if_neg h

theorem formatB_illegal {arg : BitVec 16} (h : 2 ≤ arg.toNat) (f : Bool → Instr) :
    formatB arg f = .illegal .operandBits := by
  refine if_neg fun h0 => ?_
  obtain ⟨b, -, rfl⟩ := formatB_inv (f := f) (.inl (if_pos h0))
  cases b <;> simp at h

/-! ## Commands of one micro-operation (40_line_and_delay.md R120) -/

theorem started_eq (i : Instr) (s : State) :
    started i s = { s with cmdOp := (opRow i).op, cmdArg := argOf i, upc := 0, busy := true, done := false } := by
  simp only [started, accept, opField_encode, argField_encode]

/-- A layer 0 command on an idle block: its word is accepted, its micro-operation performed, and it completes. -/
theorem exec_of_plain {i : Instr} {op : MicroOp} (hp : microProgram i = [plain op]) (hw : i.wellFormed = true)
    (hf : finalDecode i = none) {s : State} (hb : s.busy = false) :
    exec i s = .next (finishFlags (advance (performOp op { s with
      cmdOp := (opRow i).op, cmdArg := argOf i, upc := 0, busy := true, done := false }))) := by
  rw [exec_started hw hb, hf, hp, started_eq]
  rfl

/-! ## The physical line (20_memory.md R71) -/

/-- A released line is what the pull-up and the device make it. -/
theorem physicalLine_input {s : State} (h : s.dir = .input) (devLow : Bool) :
    physicalLine s devLow = some (if devLow then .low else .high) := by
  simp [physicalLine, owOe, dirBit, h]

/-- A driven line has the level of the latch, but for a High against the device, which has none (log 13). -/
theorem physicalLine_output {s : State} (h : s.dir = .output) (devLow : Bool) :
    physicalLine s devLow = if devLow ∧ s.out = .high then none else some s.out := by
  cases ho : s.out <;> simp [physicalLine, owOe, owOut, dirBit, h, ho]

/-! ## The layer 0 commands on an idle block -/

/-- SET_INPUT (R121). -/
theorem exec_setInput {s : State} (hb : s.busy = false) :
    exec .setInput s = .next { completed 0x01 0 1 [.dirIn] s with dir := .input } :=
  exec_of_plain (op := .setInput) rfl rfl rfl hb

/-- SET_OUTPUT (R122): the latch is as before. -/
theorem exec_setOutput {s : State} (hb : s.busy = false) :
    exec .setOutput s = .next { completed 0x02 0 1 [.dirOut] s with dir := .output } :=
  exec_of_plain (op := .setOutput) rfl rfl rfl hb

/-- WRITE_LEVEL (R123): the direction is as before. -/
theorem exec_writeLevel {s : State} (hb : s.busy = false) (l : Level) :
    exec (.writeLevel l) s =
      .next { completed 0x03 (if l = .high then 1 else 0) 1 [.drive l] s with out := l } := by
  rw [exec_of_plain rfl rfl rfl hb]
  cases l <;> rfl

/-- DELAY (R127): the delay counter is 0 when the wait is over, as it is while the block is idle. -/
theorem exec_delay {s : State} (h : Idle s) (n : BitVec 16) :
    exec (.delay n) s = .next (completed 0x05 n 1 [.wait n.toNat] s) := by
  obtain ⟨hb, hd⟩ := h
  rw [exec_of_plain rfl rfl rfl hb, performOp, delayOp, completed, ← hd]
  rfl

/-- Settles O12, by the command's meaning on an idle block and the released line. -/
theorem setInputReleasesTheLine : Obligations.SetInputReleasesTheLine :=
  ⟨by decide, fun arg h => (decodeWord_commandWord _ arg).trans (formatN_illegal h .setInput),
    fun _ => ⟨exec_busy, fun ⟨hb, _⟩ => ⟨_, exec_setInput hb, rfl, rfl, physicalLine_input rfl⟩⟩⟩

/-- Settles O13, by the command's meaning on an idle block and the driven line. -/
theorem setOutputDrivesTheLatchedLevel : Obligations.SetOutputDrivesTheLatchedLevel :=
  ⟨by decide, fun arg h => (decodeWord_commandWord _ arg).trans (formatN_illegal h .setOutput),
    fun _ => ⟨exec_busy, fun ⟨hb, _⟩ => ⟨_, exec_setOutput hb, rfl, rfl, rfl,
      (physicalLine_output rfl false).trans (if_neg (by simp))⟩⟩⟩

/-- Settles O14: the line follows the new latch only while the pin is an output. -/
theorem writeLevelUpdatesTheLatchOnce : Obligations.WriteLevelUpdatesTheLatchOnce := by
  refine ⟨by decide, by decide, fun arg h => ?_, fun i hi => microProgram_ne_writeHigh hi,
    fun l s => ⟨exec_busy, fun ⟨hb, _⟩ => ⟨_, exec_writeLevel hb l, rfl, fun hd devLow => ?_, fun hd => ?_⟩⟩⟩
  · exact (decodeWord_commandWord _ arg).trans (formatB_illegal h fun b => .writeLevel (bitLevel b))
  · simp [physicalLine_input, completed, hd]
  · simp [physicalLine_output, completed, hd]

/-- The environment's answer uses up one level of the script, or one free draw past its end (log 3). -/
theorem oracle_state (s : State) :
    (oracle s).2 = { s with
      lineIn := s.lineIn.drop 1, draws := if s.lineIn = [] then s.draws + 1 else s.draws } := by
  cases h : s.lineIn <;> simp [oracle, h]

/-- The answer given is one the environment promises (20_memory.md R72). -/
theorem answers_oracle (s : State) : answers s [(oracle s).1] := by
  intro j l hj hl
  obtain rfl : j = 0 := by simpa using hj
  cases h : s.lineIn with
  | nil => simp [h] at hl
  | cons a ls => simpa [oracle, h] using hl

theorem levelByte_eq (l : Level) : levelByte l = if l = .high then 0x01 else 0x00 := by
  cases l <;> rfl

/-- Settles O15: the answer is the one the environment gives once the command is accepted. -/
theorem readLevelReturnsTheAnswer : Obligations.ReadLevelReturnsTheAnswer := by
  refine ⟨by decide, fun arg h => (decodeWord_commandWord _ arg).trans (formatN_illegal h .readLevel),
    fun s => ⟨exec_busy, fun ⟨hb, _⟩ => ⟨_, answers_oracle (started .readLevel s), ?_⟩⟩⟩
  rw [exec_of_plain rfl rfl rfl hb, started_eq, ← levelByte_eq]
  simp only [performOp, readOp, oracle_state]
  rfl

/-- Settles O16: every operand has its word, and `cycles_cover` bounds the wait. -/
theorem delayWaitsAndChangesNothing : Obligations.DelayWaitsAndChangesNothing := fun n _ =>
  ⟨decodeWord_encode_wellFormed (i := .delay n) rfl, cycles_cover _, exec_busy, fun h => exec_delay h n⟩

/-! ## The count of a `Delay` (40_line_and_delay.md R126) -/

/-- `cycles` is the quotient rounded up: it is at most `q` exactly when `q` cycles are long enough. -/
theorem cyclesAt_le_iff {hz n q : Nat} : cyclesAt hz n ≤ q ↔ n * hz ≤ q * 1000000 := by
  unfold cyclesAt ceilDiv
  split <;> omega

theorem isLeast_cycles (n : Nat) : IsLeast { q : Nat | n * Config.clkHz ≤ q * 1000000 } (cycles n) :=
  ⟨cycles_cover n, fun _ hq => cyclesAt_le_iff.mpr hq⟩

/-- At a clock of whole megahertz nothing is rounded. -/
theorem cyclesAt_megahertz (k n : Nat) : cyclesAt (1000000 * k) n = n * k :=
  eq_of_forall_ge_iff fun q => by
    rw [cyclesAt_le_iff, Nat.mul_left_comm, Nat.mul_comm q, Nat.mul_le_mul_left_iff (by decide)]

/-- Settles O17: `cyclesAt_le_iff` makes `cycles` the least count, and the rest are bounds of the clock. -/
theorem cyclesIsTheRoundedUpQuotient : Obligations.CyclesIsTheRoundedUpQuotient := by
  refine ⟨fun n hn => ⟨isLeast_cycles n, cycles_lt hn, ?_, delayCount_toNat hn⟩, ?_, ?_, by decide⟩
  · exact Nat.mul_lt_mul'' (c := 2 ^ 16) (Nat.lt_succ_of_le hn) clkHz_bounds.2
  · rintro _ n ⟨k, rfl⟩
    rw [cyclesAt_megahertz, Nat.mul_div_cancel_left k (by decide)]
  · exact Nat.le_zero.mp (cyclesAt_le_iff.mpr (by simp))

/-! ## The sequencer at a `Delay` (40_line_and_delay.md R128) -/

theorem seqStep_at {i : Instr} {m : MicroStep} {s : State} (hi : decodeWord (cmdWord s) = .ok i)
    (hm : (microProgram i)[s.upc.toNat]? = some m) : seqStep s = .next (microStep m s) := by
  rw [seqStep_of_command hi]
  simp only [commandStep, hm]

/-- A micro-step's store does not look at `upc`. -/
theorem finishOp_eq (m : MicroStep) (s : State) : finishOp m s = afterOp m (advance s) := by
  obtain ⟨op, c, k⟩ := m
  cases k <;> rfl

/-- Settles O18, by the count the sequencer finds. -/
theorem delayIsCountedByTheSequencer : Obligations.DelayIsCountedByTheSequencer := by
  intro i m n s hi hm hop
  have hmem : m ∈ microProgram i := List.mem_of_getElem? hm
  have hcount : (delayCount n).toNat = cycles n := delayCount_toNat (shortDelays_microProgram i m hmem n hop)
  have hbefore : beforeOp m s = s := by simp [beforeOp, clearAcc_of_delay i m hmem n hop]
  rw [seqStep_at hi hm]
  refine ⟨fun hd hc => ?_, fun hd hc => ?_, fun hd => ?_, fun hd => ?_⟩
  · rw [microStep_load hop hd (fun h => hc (by simp [← hcount, h])), hbefore]
    rfl
  · rw [microStep_loadZero hop hd (BitVec.eq_of_toNat_eq (hcount.trans hc)), runStep_delay hop, hbefore, finishOp_eq,
      ← hd]
    rfl
  · rw [microStep_cycle hop hd]
    rfl
  · rw [microStep_lastCycle hop hd, finishOp_eq]
    rfl

end Sys2Proof.Machine

namespace Sys2Proof.Machine

/-! ## Commands that run a stretch of micro-steps (41_onewire_bit.md, 42_onewire_byte.md) -/

/-- A command without a decode on an idle block, by the stretch its micro-program runs: it completes with the
stretch's events and answers, and where the stretch leaves the accumulator and the line. -/
theorem exec_of_ran {i : Instr} {es : List Event} {reads : Nat} {s t : State} (hw : i.wellFormed = true)
    (hf : finalDecode i = none) (h : Idle s) (hrun : runSteps (microProgram i) (started i s) = t)
    (hran : Ran es reads (started i s) t) (hscratch : t.scratch = s.scratch) :
    exec i s = .next { completed (opRow i).op (argOf i) (BitVec.ofNat 10 (opRow i).length) es s with
      acc := t.acc, dir := t.dir, out := t.out
      lineIn := s.lineIn.drop reads, draws := s.draws + (reads - s.lineIn.length) } := by
  obtain ⟨hb, hd⟩ := h
  obtain ⟨hmoved, hevents, hlineIn, hdraws, hdlyCnt⟩ := hran
  have hupc : t.upc = BitVec.ofNat 10 (opRow i).length := by
    rw [← hrun, runSteps_upc, microProgram_length, started, accept_upc]
    exact BitVec.zero_add _
  rw [exec_started hw hb, hf, hrun]
  rw [Moved, hscratch, hupc, hevents, hlineIn, hdraws, (hdlyCnt hd).trans hd.symm, started_eq] at hmoved
  rw [hmoved]
  rfl

/-- A command that takes no answer and leaves the accumulator leaves all but the line as `completed` says. -/
theorem exec_of_ran_noRead {i : Instr} {es : List Event} {s t : State} (hw : i.wellFormed = true)
    (hf : finalDecode i = none) (h : Idle s) (hrun : runSteps (microProgram i) (started i s) = t)
    (hran : Ran es 0 (started i s) t) (hscratch : t.scratch = s.scratch) (hacc : t.acc = s.acc) :
    exec i s = .next { completed (opRow i).op (argOf i) (BitVec.ofNat 10 (opRow i).length) es s with
      dir := t.dir, out := t.out } := by
  rw [exec_of_ran hw hf h hrun hran hscratch, hacc, Nat.zero_sub]
  rfl

/-! ## The one-wire bit commands on an idle block (41_onewire_bit.md) -/

/-- OW_RESET (R141). -/
theorem exec_owReset {s : State} (h : Idle s) :
    exec .owReset s = .next { completed 0x10 0 5 resetEvents s with dir := .input, out := .low } := by
  obtain ⟨t, hrun, hran, hdir, hout, hacc, hscratch⟩ := run_owReset (started .owReset s)
  rw [exec_of_ran_noRead rfl rfl h hrun hran hscratch hacc, hdir, hout]
  rfl

/-- OW_WRITE_BIT (R144). -/
theorem exec_owWriteBit {s : State} (h : Idle s) (b : Bool) :
    exec (.owWriteBit b) s =
      .next { completed 0x11 (if b then 1 else 0) 5 (writeSlotEvents b) s with dir := .input, out := .low } := by
  obtain ⟨t, hrun, hran, hdir, hout, hacc, hscratch⟩ := run_writeSlot b (started (.owWriteBit b) s)
  rw [exec_of_ran_noRead rfl rfl h hrun hran hscratch hacc, hdir, hout]
  cases b <;> rfl

/-- One answer uses up one level of the script, or one free draw where it is empty (log 3). -/
theorem draws_one (s : State) :
    s.draws + (1 - s.lineIn.length) = if s.lineIn = [] then s.draws + 1 else s.draws := by
  cases s.lineIn <;> simp

/-- OW_READ_BIT (R147): the accumulator is the sample, whatever it held. -/
theorem exec_owReadBit {s : State} (h : Idle s) :
    ∃ l, answers s [l] ∧ exec .owReadBit s = .next
      { completed 0x12 0 7 (readSlotEvents l) s with
        acc := levelByte l, dir := .input, out := .low
        lineIn := s.lineIn.drop 1, draws := if s.lineIn = [] then s.draws + 1 else s.draws } := by
  obtain ⟨l, t, hrun, hanswers, hran, hdir, hout, hacc, hscratch⟩ :=
    run_readSlot .whole false none (started .owReadBit s)
  refine ⟨l, hanswers, ?_⟩
  rw [exec_of_ran rfl rfl h hrun hran hscratch, hdir, hout, hacc, draws_one]
  rfl

/-- Settles O20, by the command's meaning on an idle block. -/
theorem owResetRunsTheResetWindow : Obligations.OwResetRunsTheResetWindow :=
  ⟨by decide, fun arg h => (decodeWord_commandWord _ arg).trans (formatN_illegal h .owReset), by decide,
    fun _ => ⟨exec_busy, exec_owReset⟩⟩

/-- Settles O21, by the command's meaning on an idle block. -/
theorem owWriteBitRunsOneWriteSlot : Obligations.OwWriteBitRunsOneWriteSlot :=
  ⟨by decide, by decide, fun arg h => (decodeWord_commandWord _ arg).trans (formatB_illegal h .owWriteBit), by decide,
    fun b _ => ⟨exec_busy, fun h => exec_owWriteBit h b⟩⟩

/-- Settles O22: the answer is the sample of the read slot. -/
theorem owReadBitRunsOneReadSlot : Obligations.OwReadBitRunsOneReadSlot := by
  refine ⟨by decide, fun arg h => (decodeWord_commandWord _ arg).trans (formatN_illegal h .owReadBit),
    fun _ => rfl, fun s => ⟨exec_busy, fun h => ?_⟩⟩
  obtain ⟨l, hanswers, hexec⟩ := exec_owReadBit h
  exact ⟨l, hanswers, hexec.trans (by rw [levelByte_eq]; rfl)⟩

end Sys2Proof.Machine

namespace Sys2Proof.Machine

/-! ## Slots one after another (42_onewire_byte.md R160) -/

theorem nominalTime_append (e1 e2 : List Event) : nominalTime (e1 ++ e2) = nominalTime e1 + nominalTime e2 := by
  simp [nominalTime]

/-- The nominal time of slots of one length. -/
theorem nominalTime_flatMap {α : Type} {f : α → List Event} {n : Nat} (h : ∀ x, nominalTime (f x) = n)
    (l : List α) : nominalTime (l.flatMap f) = l.length * n := by
  induction l with
  | nil => simp [nominalTime]
  | cons x l ih =>
    rw [List.flatMap_cons, nominalTime_append, h, ih, List.length_cons]
    ring

theorem writeSlotEvents_length (b : Bool) : (writeSlotEvents b).length = 5 := by cases b <;> rfl

theorem writeSlotEvents_waits (b : Bool) : (writeSlotEvents b).countP Event.isWait = 2 := by cases b <;> rfl

theorem nominalTime_writeSlot (b : Bool) : nominalTime (writeSlotEvents b) = 60 := by cases b <;> rfl

theorem readSlotEvents_length (l : Level) : (readSlotEvents l).length = 7 := rfl

theorem readSlotEvents_waits (l : Level) : (readSlotEvents l).countP Event.isWait = 3 := rfl

theorem readSlotEvents_samples (l : Level) : (readSlotEvents l).countP Event.isSample = 1 := rfl

theorem nominalTime_readSlot (l : Level) : nominalTime (readSlotEvents l) = 60 := rfl

/-! ## OW_WRITE_BYTE (42_onewire_byte.md R161) -/

/-- A command word is that of its opcode with the operand in the low half. -/
theorem commandWord_eq_or (op : Byte) (arg : BitVec 16) :
    commandWord op arg = commandWord op 0 ||| arg.setWidth 32 := by
  unfold commandWord
  ext i hi
  simp only [BitVec.getElem_or, BitVec.getElem_append, BitVec.getElem_setWidth]
  split
  · simp [BitVec.getLsbD_eq_getElem ‹i < 16›]
  · rw [BitVec.getLsbD_of_ge arg i (by omega), Bool.or_false]

theorem encode_owWriteByte (v : Byte) : encode (.owWriteByte v) = 0x13000000 ||| v.setWidth 32 := by
  rw [encode, commandWord_eq_or, argOf, BitVec.setWidth_setWidth (by decide)]
  exact congrArg (· ||| v.setWidth 32) (by decide : commandWord 0x13 0 = 0x13000000)

theorem formatY_illegal {arg : BitVec 16} (h : 256 ≤ arg.toNat) (f : Byte → Decoded) :
    formatY arg f = .illegal .operandBits := by
  refine if_neg fun h0 => ?_
  obtain ⟨v, -, rfl⟩ := formatY_inv (f := fun v => .ok (.owWriteByte v)) (.inl (if_pos h0))
  have := v.isLt
  rw [BitVec.toNat_setWidth] at h
  omega

/-- OW_WRITE_BYTE on an idle block. -/
theorem exec_owWriteByte {s : State} (h : Idle s) (v : Byte) :
    exec (.owWriteByte v) s =
      .next { completed 0x13 (v.setWidth 16) 40 (writeByteEvents v) s with dir := .input, out := .low } := by
  obtain ⟨t, hrun, hran, hdir, hout, hacc, hscratch⟩ := run_writeByte v (started (.owWriteByte v) s)
  rw [exec_of_ran_noRead rfl rfl h hrun hran hscratch hacc, hdir, hout]
  rfl

/-- OW_WRITE_BYTE leaves an idle block idle, and the eight slots in the trace. -/
theorem exec_owWriteByte_trace {s : State} (h : Idle s) (v : Byte) :
    ∃ t, exec (.owWriteByte v) s = .next t ∧ Idle t ∧ t.trace = s.trace ++ writeByteEvents v :=
  ⟨_, exec_owWriteByte h v, ⟨rfl, h.2⟩, by simp [State.trace, completed]⟩

/-- Settles O23: eight write slots, each of five events, two waits and 60 microseconds. -/
theorem owWriteByteSendsBitZeroFirst : Obligations.OwWriteByteSendsBitZeroFirst := by
  refine ⟨encode_owWriteByte, fun arg h => (decodeWord_commandWord _ arg).trans 
      (formatY_illegal h fun v => .ok (.owWriteByte v)),
    by decide, by decide, by decide, fun v s => ⟨?_, ?_, ?_, exec_busy, fun h => exec_owWriteByte h v⟩⟩
  · simp [writeByteEvents, List.length_flatMap, writeSlotEvents_length]
  · simp [writeByteEvents, List.countP_flatMap, Function.comp_def, writeSlotEvents_waits]
  · exact nominalTime_flatMap (fun _ => nominalTime_writeSlot _) _

/-! ## How long OW_WRITE_BYTE holds the line Low (42_onewire_byte.md R162) -/

/-- A write slot holds the line Low for 59 microseconds less 58 for a 1, however the pin and the latch stand, and
leaves the line released with the latch Low. -/
theorem lowTime_writeSlot (d : Dir) (l : Level) (b : Bool) (es : List Event) :
    lowTime d l (writeSlotEvents b ++ es) = (if b then 1 else 59) + lowTime .input .low es := by
  cases b <;> simp [writeSlotEvents, lowTime]

theorem lowTime_writeSlots {α : Type} (f : α → Bool) (l : List α) (d : Dir) (out : Level) :
    lowTime d out (l.flatMap fun x => writeSlotEvents (f x)) + 58 * l.countP f = 59 * l.length := by
  induction l generalizing d out with
  | nil => rfl
  | cons x l ih =>
    have hrest := ih .input .low
    rw [List.flatMap_cons, lowTime_writeSlot, List.countP_cons, List.length_cons]
    split <;> omega

/-- Settles O24: the events appended are the eight write slots. -/
theorem writeByteLowTimeCountsTheOnes : Obligations.WriteByteLowTimeCountsTheOnes := by
  intro v s t h ht
  obtain ⟨t', ht', -, htrace⟩ := exec_owWriteByte_trace h v
  cases ht'.symm.trans ht
  exact ⟨writeByteEvents v, htrace, lowTime_writeSlots _ _ _ _⟩

/-! ## OW_READ_BYTE (42_onewire_byte.md R163) -/

/-- The byte that the answers `ls` of eight read slots leave in a cleared accumulator. -/
def byteRead (ls : List Level) : Byte := accOf 0 (bitOrder.zip ls)

theorem getLsbD_one_shiftLeft : ∀ i j : Fin 8, (1#8 <<< j.val).getLsbD i = true ↔ i = j := by decide

/-- A bit of the accumulator is 1 after some read slots if it was before, or the sample of its slot is High. -/
theorem getLsbD_accOf (i : Fin 8) (r : List (Fin 8 × Level)) (a : Byte) :
    (accOf a r).getLsbD i = true ↔ a.getLsbD i = true ∨ (i, Level.high) ∈ r := by
  induction r generalizing a with
  | nil => simp [accOf]
  | cons p r ih =>
    obtain ⟨j, l⟩ := p
    rw [accOf, ih, List.mem_cons]
    cases l with
    | low => simp
    | high =>
      rw [if_pos rfl, BitVec.getLsbD_or, Bool.or_eq_true, getLsbD_one_shiftLeft, or_assoc, Prod.mk.injEq,
        and_iff_left rfl]

theorem bitOrder_getElem? (n : Nat) (i : Fin 8) : bitOrder[n]? = some i ↔ n = i := by
  rw [show bitOrder = List.finRange 8 from rfl, List.getElem?_eq_some_iff]
  constructor
  · rintro ⟨hn, rfl⟩
    simp
  · rintro rfl
    simp

/-- Sample `i` stands in bit `i`. -/
theorem getLsbD_byteRead (ls : List Level) {i : Nat} (hi : i < 8) :
    (byteRead ls).getLsbD i = true ↔ ls[i]? = some .high := by
  rw [byteRead, getLsbD_accOf ⟨i, hi⟩, List.mem_iff_getElem?]
  simp [List.getElem?_zip_eq_some, bitOrder_getElem?]

/-- OW_READ_BYTE on an idle block: eight answers, and the byte they make in the accumulator. -/
theorem exec_owReadByte {s : State} (h : Idle s) :
    ∃ ls, ls.length = 8 ∧ answers s ls ∧ exec .owReadByte s = .next
      { completed 0x14 0 56 (ls.flatMap readSlotEvents) s with
        acc := byteRead ls, dir := .input, out := .low
        lineIn := s.lineIn.drop 8, draws := s.draws + (8 - s.lineIn.length) } := by
  obtain ⟨ls, t, hlen, hrun, hanswers, hran, hdir, hout, hacc, hscratch⟩ :=
    run_readByte none (started .owReadByte s)
  refine ⟨ls, hlen, hanswers, ?_⟩
  rw [exec_of_ran rfl rfl h hrun hran hscratch, hdir, hout, hacc]
  rfl

/-- Settles O25: eight read slots, each of seven events, three waits, one sample and 60 microseconds. -/
theorem owReadByteAssemblesEightSamples : Obligations.OwReadByteAssemblesEightSamples := by
  refine ⟨by decide, fun arg h => (decodeWord_commandWord _ arg).trans (formatN_illegal h .owReadByte),
    fun s => ⟨exec_busy, fun h => ?_⟩⟩
  obtain ⟨ls, hlen, hanswers, hexec⟩ := exec_owReadByte h
  refine ⟨ls, byteRead ls, hlen, hanswers, fun i hi => getLsbD_byteRead ls hi, ?_, ?_, ?_, ?_, hexec⟩
  · simp [List.length_flatMap, readSlotEvents_length, hlen]
  · simp [List.countP_flatMap, Function.comp_def, readSlotEvents_waits, hlen]
  · simp [List.countP_flatMap, Function.comp_def, readSlotEvents_samples, hlen]
  · rw [nominalTime_flatMap nominalTime_readSlot, hlen]

/-! ## The byte read as a number (42_onewire_byte.md R164) -/

/-- Bit `i` of the closed form is sample `i`. -/
theorem testBit_levelsValue (ls : List Level) (i : Nat) :
    (levelsValue ls).testBit i = true ↔ ls[i]? = some .high := by
  induction ls generalizing i with
  | nil => simp [levelsValue]
  | cons l ls ih =>
    cases i with
    | zero => cases l <;> simp [levelsValue, Nat.testBit_zero]
    | succ i =>
      rw [Nat.testBit_succ, List.getElem?_cons_succ, ← ih, levelsValue]
      congr! 2
      split <;> omega

theorem byteRead_toNat {ls : List Level} (h : ls.length ≤ 8) : (byteRead ls).toNat = levelsValue ls := by
  refine Nat.eq_of_testBit_eq fun i => Bool.eq_iff_iff.mpr ?_
  rw [testBit_levelsValue, BitVec.testBit_toNat]
  by_cases hi : i < 8
  · exact getLsbD_byteRead ls hi
  · rw [BitVec.getLsbD_of_ge _ _ (by omega), List.getElem?_eq_none (by omega)]
    simp

/-- Answers that the script holds in full are the script's. -/
theorem answers_eq {s : State} {ls ls' rest : List Level} (h : answers s ls) (hlen : ls.length = ls'.length)
    (hline : s.lineIn = ls' ++ rest) : ls = ls' := by
  refine List.ext_getElem hlen fun j hj hj' => ?_
  have hscript : s.lineIn[j]? = some ls'[j] := by
    rw [hline, List.getElem?_append_left hj', List.getElem?_eq_getElem hj']
  exact (List.getElem?_eq_some_iff.mp (h j _ hj hscript)).2

/-- OW_READ_BYTE under a script of eight levels leaves the byte they make. -/
theorem exec_owReadByte_scripted {s : State} {ls rest : List Level} (h : Idle s) (hlen : ls.length = 8)
    (hline : s.lineIn = ls ++ rest) : ∃ t, exec .owReadByte s = .next t ∧ t.acc = byteRead ls := by
  obtain ⟨ls', hlen', hanswers, hexec⟩ := exec_owReadByte h
  obtain rfl : ls' = ls := answers_eq hanswers (hlen'.trans hlen.symm) hline
  exact ⟨_, hexec, rfl⟩

/-- Settles O26, by the bits of the two numbers. -/
theorem readByteIsTheSumOfShiftedBits : Obligations.ReadByteIsTheSumOfShiftedBits := by
  intro s t ls rest h hlen hline ht
  obtain ⟨u, hu, hacc⟩ := exec_owReadByte_scripted h hlen hline
  cases hu.symm.trans ht
  rw [hacc, byteRead_toNat hlen.le]

/-! ## A byte looped back (42_onewire_byte.md R165) -/

/-- The loopback answers the bit of a write slot. -/
theorem loopLevels_writeSlot (b : Bool) (es : List Event) :
    loopLevels (writeSlotEvents b ++ es) = bitLevel b :: loopLevels es := by
  cases b <;> rfl

theorem loopLevels_writeSlots {α : Type} (f : α → Bool) (l : List α) :
    loopLevels (l.flatMap fun x => writeSlotEvents (f x)) = l.map fun x => bitLevel (f x) := by
  induction l with
  | nil => rfl
  | cons x l ih => rw [List.flatMap_cons, loopLevels_writeSlot, ih, List.map_cons]

theorem bitLevel_eq_high {b : Bool} : bitLevel b = .high ↔ b = true := by cases b <;> decide

/-- The bits of a byte, read in the order they are sent, make the byte. -/
theorem byteRead_bits (v : Byte) : byteRead ((List.range 8).map fun i => bitLevel (v.getLsbD i)) = v := by
  refine BitVec.eq_of_getLsbD_eq fun i hi => Bool.eq_iff_iff.mpr ?_
  rw [getLsbD_byteRead _ hi, List.getElem?_map, List.getElem?_range hi, Option.map_some, Option.some_inj,
    bitLevel_eq_high]

/-- Settles O27: the script of the loopback is the bits of the byte written. -/
theorem loopbackReturnsTheByteWritten : Obligations.LoopbackReturnsTheByteWritten := by
  intro v s h hevents
  obtain ⟨t, ht, hidle, htrace⟩ := exec_owWriteByte_trace h v
  have hloop : loopLevels t.trace = (List.range 8).map fun i => bitLevel (v.getLsbD i) := by
    rw [htrace, State.trace, hevents]
    exact loopLevels_writeSlots _ _
  obtain ⟨u, hu, hacc⟩ := exec_owReadByte_scripted (s := { t with lineIn := loopLevels t.trace }) hidle (by simp)
    (hloop.trans (List.append_nil _).symm)
  exact ⟨t, u, ht, hu, hacc.trans (byteRead_bits v)⟩

end Sys2Proof.Machine

namespace Sys2Proof.Machine

/-! ## The decode formula in numbers (43_temperature.md R176, R180) -/

/-- The sign indicator is bit 3 of the MSB. -/
theorem signSet_eq_bit (msb : Byte) : signSet msb = msb.getLsbD 3 := by
  revert msb
  decide

theorem intHi_toNat (msb : Byte) : (msb &&& 0x07).toNat = msb.toNat % 8 := by
  rw [BitVec.toNat_and]
  exact Nat.and_two_pow_sub_one_eq_mod msb.toNat 3

/-- The two parts of the integer field, as bytes, share no bit. -/
theorem intParts_disjoint (lsb msb : Byte) : (lsb >>> 4) &&& ((msb &&& 0x07) <<< 4) = 0#8 := by
  ext i hi
  simp only [BitVec.getElem_and, BitVec.getElem_ushiftRight, BitVec.getElem_shiftLeft, BitVec.getElem_zero]
  by_cases h : i < 4
  · simp [h]
  · rw [BitVec.getLsbD_of_ge lsb _ (by omega), Bool.false_and]

/-- The integer part: the high half of the LSB, and above it the three low bits of the MSB. -/
theorem intField_toNat (lsb msb : Byte) : (intField lsb msb).toNat = lsb.toNat / 16 + 16 * (msb.toNat % 8) := by
  have hlsb := lsb.isLt
  rw [intField, Config.intHiMask, BitVec.toNat_setWidth, BitVec.toNat_add, BitVec.toNat_shiftLeft, intHi_toNat,
    BitVec.toNat_ushiftRight, Nat.shiftRight_eq_div_pow, Nat.shiftLeft_eq]
  omega

theorem fracField_unset_toNat (lsb : Byte) : (fracField .unset lsb).toNat = 15 - lsb.toNat % 16 := by
  rw [fracField, BitVec.toNat_not, BitVec.extractLsb'_toNat, Nat.shiftRight_zero]

/-- The reading in sixteenths: the integer part above the four fraction bits. -/
theorem celsiusField_toNat (p : FracPolarity) (lsb msb : Byte) :
    (celsiusField p lsb msb).toNat = 16 * (intField lsb msb).toNat + (fracField p lsb).toNat := by
  have hint := (intField lsb msb).isLt
  have hfrac := (fracField p lsb).isLt
  have hor := Nat.shiftLeft_add_eq_or_of_lt hfrac (intField lsb msb).toNat
  rw [Nat.shiftLeft_eq] at hor
  rw [celsiusField, BitVec.toNat_or, BitVec.toNat_shiftLeft, BitVec.toNat_setWidth, BitVec.toNat_setWidth,
    Nat.mod_eq_of_lt (by omega), Nat.shiftLeft_eq, Nat.mod_eq_of_lt (by omega), Nat.mod_eq_of_lt (by omega), ← hor,
    Nat.mul_comm]

theorem celsiusField_unset_toNat (lsb msb : Byte) :
    (celsiusField .unset lsb msb).toNat =
      16 * (lsb.toNat / 16 + 16 * (msb.toNat % 8)) + (15 - lsb.toNat % 16) := by
  rw [celsiusField_toNat, intField_toNat, fracField_unset_toNat]

/-! ## The decode step (43_temperature.md R176, R177) -/

/-- With the sign indicator both results are 0. -/
theorem decodeStep_of_sign {s : State} (h : (memRead 1 s).getLsbD 3 = true) (u : TempUnit) :
    decodeStep u s = { s with celsius := 0, result := 0 } := by
  rw [decodeStep_eq, signSet_eq_bit, h]
  rfl

/-- Without it they are the formula's. -/
theorem decodeStep_of_noSign {s : State} (h : (memRead 1 s).getLsbD 3 = false) (u : TempUnit) :
    decodeStep u s = { s with
      celsius := celsiusField .unset (memRead 0 s) (memRead 1 s)
      result := resultField u (celsiusField .unset (memRead 0 s) (memRead 1 s)) } := by
  rw [decodeStep_eq, signSet_eq_bit, h]
  rfl

theorem lowHalf_toNat (b : Byte) : (b.extractLsb' 0 4).toNat = b.toNat % 16 := by
  rw [BitVec.extractLsb'_toNat, Nat.shiftRight_zero]

theorem lowHalf_bit_three (b : Byte) : (b.extractLsb' 0 4).getLsbD 3 = b.getLsbD 3 := by
  simp

/-- The formula uses the low half of the MSB alone. -/
theorem celsiusField_congr {lsb msb msb' : Byte} (h : msb.extractLsb' 0 4 = msb'.extractLsb' 0 4) :
    celsiusField .unset lsb msb = celsiusField .unset lsb msb' := by
  have hlow := congrArg BitVec.toNat h
  rw [lowHalf_toNat, lowHalf_toNat] at hlow
  refine BitVec.eq_of_toNat_eq ?_
  rw [celsiusField_unset_toNat, celsiusField_unset_toNat]
  omega

theorem signSet_congr {msb msb' : Byte} (h : msb.extractLsb' 0 4 = msb'.extractLsb' 0 4) :
    signSet msb = signSet msb' := by
  rw [signSet_eq_bit, signSet_eq_bit, ← lowHalf_bit_three, h, lowHalf_bit_three]

/-- Settles O31: a genuine zero takes the formula's branch, whose value is 0. -/
theorem signIndicatorReadsZero : Obligations.SignIndicatorReadsZero := by
  refine fun s => ⟨decodeStep_of_sign, fun hlsb hmsb => ?_⟩
  have hsign : (memRead 1 s).getLsbD 3 = false := by rw [← lowHalf_bit_three, hmsb]; rfl
  have hzero : celsiusField .unset (memRead 0 s) (memRead 1 s) = 0 := by
    rw [hlsb, celsiusField_congr (msb' := 0) hmsb]
    decide
  rw [decodeStep_of_noSign hsign, hzero]
  rfl

/-- Settles O34: `intField_toNat` and `celsiusField_toNat` are the formulas without a remainder. -/
theorem decoderNeverOverflowsAndIgnoresTheRest : Obligations.DecoderNeverOverflowsAndIgnoresTheRest := by
  refine ⟨fun lsb msb => ⟨intField_toNat lsb msb, BitVec.add_eq_or_of_and_eq_zero _ _ (intParts_disjoint lsb msb), ?_,
    resultField_celsius_toNat _, resultField_fahrenheit_toNat _⟩, fun u s t hlsb hmsb => ?_⟩
  · rw [celsiusField_toNat, fracField_unset_toNat]
  · simp only [decodeStep_eq]
    rw [signSet_congr hmsb, celsiusField_congr hmsb, hlsb]
    exact ⟨rfl, rfl⟩

/-- In either unit a larger reading has the larger numerator. -/
theorem resultField_lt (u : TempUnit) {c d : BitVec 11} (h : c.toNat < d.toNat) :
    (resultField u c).toNat < (resultField u d).toNat := by
  cases u with
  | celsius =>
    rw [resultField_celsius_toNat, resultField_celsius_toNat]
    omega
  | fahrenheit =>
    rw [resultField_fahrenheit_toNat, resultField_fahrenheit_toNat]
    omega

/-- Settles O35: the larger low half leaves the smaller fraction. -/
theorem fractionRunsBackwards : Obligations.FractionRunsBackwards := by
  intro u a b msb hhigh hlow
  refine resultField_lt u ?_
  rw [Config.fracPolarity, celsiusField_unset_toNat, celsiusField_unset_toNat, hhigh]
  omega

/-! ## The exact values (43_temperature.md R178, R179) -/

/-- A half byte is the sum of its bits' weights. -/
theorem nibble_toNat_eq_sum (x : BitVec 4) :
    x.toNat = ∑ i ∈ Finset.range 4, if x.getLsbD i then 2 ^ i else 0 := by
  revert x
  decide

/-- The fraction counts the unset low bits of the LSB (90_conflicts.md C2). -/
theorem fracField_unset_toNat_eq_sum (lsb : Byte) :
    (fracField .unset lsb).toNat = ∑ i ∈ Finset.range 4, if lsb.getLsbD i then 0 else 2 ^ i := by
  rw [nibble_toNat_eq_sum]
  refine Finset.sum_congr rfl fun i hi => ?_
  have hi : i < 4 := Finset.mem_range.mp hi
  cases h : lsb.getLsbD i <;> simp [fracField, hi, h]

/-- The fraction in degrees. -/
theorem fracField_unset_degrees (lsb : Byte) :
    ((fracField .unset lsb).toNat : ℚ) / 16 =
      ∑ i ∈ Finset.range 4, if lsb.getLsbD i then 0 else (2 : ℚ) ^ i / 16 := by
  rw [fracField_unset_toNat_eq_sum, Nat.cast_sum, Finset.sum_div]
  refine Finset.sum_congr rfl fun i _ => ?_
  cases lsb.getLsbD i <;> simp

/-- Settles O32: a sixteenth of `celsius` is the integer part and the fraction. -/
theorem celsiusResultIsExact : Obligations.CelsiusResultIsExact := by
  intro s h
  set c := celsiusField .unset (memRead 0 s) (memRead 1 s) with hc
  have hlt : (c.toNat : ℚ) ≤ 2047 := by exact_mod_cast Nat.le_of_lt_succ c.isLt
  have hvalue : (c.toNat : ℚ) / 16 = ((memRead 0 s).toNat / 16 + 16 * ((memRead 1 s).toNat % 8) : ℕ) +
      ∑ i ∈ Finset.range 4, if (memRead 0 s).getLsbD i then 0 else (2 : ℚ) ^ i / 16 := by
    rw [← fracField_unset_degrees, ← intField_toNat, hc, celsiusField_toNat]
    push_cast
    ring
  simp only [decodeStep_of_noSign h]
  refine ⟨?_, hvalue, rfl, ?_⟩
  · rw [← hvalue, resultField_celsius_toNat]
    push_cast
    ring
  · linarith

/-- Settles O33: the numerator is `9 * celsius + 2560`, of an 11-bit `celsius`. -/
theorem fahrenheitResultIsExact : Obligations.FahrenheitResultIsExact := by
  intro s h
  set c := celsiusField .unset (memRead 0 s) (memRead 1 s)
  have hlt : (c.toNat : ℚ) ≤ 2047 := by exact_mod_cast Nat.le_of_lt_succ c.isLt
  have hpos : (0 : ℚ) ≤ c.toNat := Nat.cast_nonneg _
  simp only [decodeStep_of_noSign h, resultField_fahrenheit_toNat, Nat.cast_add, Nat.cast_mul, Nat.cast_ofNat, true_and]
  refine ⟨by ring, ?_, ?_⟩ <;> linarith

/-! ## DECODE (43_temperature.md R175) -/

/-- DECODE on an idle block: no micro-operation, and the decode step's two registers. -/
theorem exec_decode {v : Byte} {u : TempUnit} (hu : unitOf v = some u) {s : State} (hb : s.busy = false) :
    exec (.decode v) s = .next { completed 0x21 (v.setWidth 16) 0 [] s with
      celsius := (decodeStep u s).celsius, result := (decodeStep u s).result } := by
  rw [exec_started (by simp [Instr.wellFormed, hu]) hb, started_eq, finalDecode, hu]
  simp only [complete, decodeStep_eq]
  rfl

/-- Settles O30, by the decode step's two cases. -/
theorem decodeComputesTheReading : Obligations.DecodeComputesTheReading := by
  intro v u s hu ⟨hb, _⟩
  refine ⟨_, exec_decode hu hb, rfl, fun h => ?_, fun h => ?_⟩
  · rw [decodeStep_of_sign h]
    exact ⟨rfl, rfl⟩
  · rw [decodeStep_of_noSign h]
    refine ⟨celsiusField_unset_toNat _ _, ?_, ?_⟩
    · rintro rfl
      exact resultField_celsius_toNat _
    · rintro rfl
      exact resultField_fahrenheit_toNat _

end Sys2Proof.Machine

namespace Sys2Proof.Machine

/-! ## What the line returns changes no operation (43_temperature.md R183, 60_exceptions.md R210) -/

/-- What a micro-operation shows on the line when its sample, if it takes one, is Low. -/
def shownEvent : MicroOp → Event
  | .setInput => .dirIn
  | .setOutput => .dirOut
  | .write l => .drive l
  | .read _ => .sample .low
  | .delay n => .wait n

theorem withoutLevels_append (e1 e2 : List Event) :
    withoutLevels (e1 ++ e2) = withoutLevels e1 ++ withoutLevels e2 :=
  List.map_append

/-- A micro-step appends the event of its operation, with whatever level. -/
theorem runStep_shows (s : State) (m : MicroStep) :
    ∃ e, (runStep s m).trace = s.trace ++ [e] ∧ withoutLevels [e] = [shownEvent m.op] := by
  refine ⟨_, by rw [State.trace, runStep_events, List.reverse_cons, State.trace], ?_⟩
  cases m.op <;> rfl

/-- What a micro-program appends to the trace, the levels left out, is fixed by the program. -/
theorem runSteps_shows (p : List MicroStep) (s : State) :
    ∃ es, (runSteps p s).trace = s.trace ++ es ∧ withoutLevels es = p.map fun m => shownEvent m.op := by
  induction p generalizing s with
  | nil => exact ⟨[], by simp, rfl⟩
  | cons m p ih =>
    obtain ⟨e, htrace, he⟩ := runStep_shows s m
    obtain ⟨es, htrace', hes⟩ := ih (runStep s m)
    refine ⟨[e] ++ es, by rw [runSteps_cons, htrace', htrace, List.append_assoc], ?_⟩
    rw [withoutLevels_append, he, hes]
    rfl

/-- What a command appends to the trace, the levels left out: nothing where it is refused, else what its micro-program
shows. -/
theorem exec_shows {i : Instr} {s t : State} (h : exec i s = .next t) :
    ∃ es, t.trace = s.trace ++ es ∧ withoutLevels es =
      if s.busy = false ∧ i.wellFormed = true then (microProgram i).map fun m => shownEvent m.op else [] := by
  rcases exec_cases i s with ⟨hb, he⟩ | ⟨hb, hw, he⟩ | ⟨hb, hw, he⟩ <;> cases he.symm.trans h
  · exact ⟨[], (List.append_nil _).symm, by simp [hb, withoutLevels]⟩
  · exact ⟨[], (List.append_nil _).symm, by simp [hw, withoutLevels]⟩
  · rw [complete_trace, if_pos ⟨hb, hw⟩]
    exact runSteps_shows (microProgram i) (started i s)

/-- Settles O54: both runs show what the one micro-program shows, or are both refused. -/
theorem answersChangeNoOperation : Obligations.AnswersChangeNoOperation := by
  intro i s t s' t' hbusy ht ht'
  obtain ⟨es, htrace, hes⟩ := exec_shows ht
  obtain ⟨es', htrace', hes'⟩ := exec_shows ht'
  exact ⟨es, es', htrace, htrace', by rw [hes, hes', hbusy]⟩

end Sys2Proof.Machine

namespace Sys2Proof.Machine

/-! ## The read sequence of GET_TEMP (43_temperature.md R171 to R173) -/

/-- GET_TEMP's micro-program up to the first byte read (R171, steps 1 to 5). -/
def getTempHeadProgram : List MicroStep :=
  owResetProgram ++ writeByteProgram Config.skipRom ++ writeByteProgram Config.convert ++
    [plain (.delay Config.tConv)] ++
    owResetProgram ++ writeByteProgram Config.skipRom ++ writeByteProgram Config.readScratchpad

theorem getTempProgram_eq :
    getTempProgram = getTempHeadProgram ++ byteOrder.flatMap fun k => readByteProgram (some k) := rfl

/-- The head takes no answer and stores nothing. -/
theorem run_getTempHead (s : State) :
    Ran getTempHead 0 s (runSteps getTempHeadProgram s) ∧ (runSteps getTempHeadProgram s).scratch = s.scratch := by
  simp only [getTempHeadProgram, runSteps_append]
  obtain ⟨s1, e1, r1, -, -, -, m1⟩ := run_owReset s
  obtain ⟨s2, e2, r2, -, -, -, m2⟩ := run_writeByte Config.skipRom s1
  obtain ⟨s3, e3, r3, -, -, -, m3⟩ := run_writeByte Config.convert s2
  obtain ⟨s4, e4, r4, -, -, -, m4⟩ := run_delay Config.tConv s3
  obtain ⟨s5, e5, r5, -, -, -, m5⟩ := run_owReset s4
  obtain ⟨s6, e6, r6, -, -, -, m6⟩ := run_writeByte Config.skipRom s5
  obtain ⟨s7, e7, r7, -, -, -, m7⟩ := run_writeByte Config.readScratchpad s6
  rw [e1, e2, e3, e4, e5, e6, e7]
  exact ⟨(((((r1.trans r2).trans r3).trans r4).trans r5).trans r6).trans r7,
    by rw [m7, m6, m5, m4, m3, m2, m1]⟩

theorem Ran.nil (s : State) : Ran [] 0 s s := ⟨.refl s, rfl, rfl, by simp, id⟩

/-- The answers to the read slots of the `n`-th byte of a stretch of byte reads. -/
def byteLevels (ls : List Level) (n : Nat) : List Level := (ls.drop (8 * n)).take 8

theorem byteLevels_append_left {ls ls' : List Level} {n : Nat} (h : 8 * n + 8 ≤ ls.length) :
    byteLevels (ls ++ ls') n = byteLevels ls n := by
  rw [byteLevels, byteLevels, List.drop_append_of_le_length (by omega),
    List.take_append_of_le_length (by rw [List.length_drop]; omega)]

theorem byteLevels_append_right {ls ls' : List Level} {n : Nat} (h : ls.length = 8 * n) (h' : ls'.length = 8) :
    byteLevels (ls ++ ls') n = ls' := by
  rw [byteLevels, List.drop_left' h, List.take_of_length_le h'.le]

theorem byteLevels_getElem? (ls : List Level) (n : Nat) {i : Nat} (hi : i < 8) :
    (byteLevels ls n)[i]? = ls[8 * n + i]? := by
  rw [byteLevels, List.getElem?_take_of_lt hi, List.getElem?_drop]

/-- A stretch of byte reads, each stored at an index of its own, took the answers `ls` from `s` and led to `t`: each
byte is what its own eight answers make it, and the last one stands in the accumulator. -/
structure BytesRead (ks : List (Fin 9)) (ls : List Level) (s t : State) : Prop where
  length : ls.length = 8 * ks.length
  answers : Machine.answers s ls
  ran : Ran (ls.flatMap readSlotEvents) ls.length s t
  wf : Memory.wf t.scratch
  bytes : ∀ n k, ks[n]? = some k → memRead k t = byteRead (byteLevels ls n)
  acc : ∀ k ∈ ks.getLast?, t.acc = memRead k t

/-- One more byte read, at an index not stored before. -/
theorem BytesRead.concat {ks : List (Fin 9)} {ls : List Level} {s t : State} (h : BytesRead ks ls s t) {k : Fin 9}
    (hk : k ∉ ks) : ∃ ls', BytesRead (ks ++ [k]) (ls ++ ls') s (runSteps (readByteProgram (some k)) t) := by
  obtain ⟨ls', u, hlen, hu, hanswers, hran, -, -, hacc, hscratch⟩ := run_readByte (some k) t
  have hread (j : Fin 9) : memRead j u = if j = k then byteRead ls' else memRead j t := by
    rw [memRead, hscratch, hacc]
    exact memRead_memWrite h.wf k j _
  rw [hu]
  refine ⟨ls', by simp [h.length, hlen, Nat.mul_add], answers_append h.answers h.ran.lineIn hanswers, ?_, ?_, ?_, ?_⟩
  · rw [List.flatMap_append, List.length_append, hlen]
    exact h.ran.trans hran
  · rw [hscratch]
    exact wf_writeByte h.wf k.isLt _
  · intro n j hj
    rw [hread]
    by_cases hn : n < ks.length
    · rw [List.getElem?_append_left hn] at hj
      have hjk : j ≠ k := fun e => hk (e ▸ List.mem_of_getElem? hj)
      rw [if_neg hjk, h.bytes n j hj, byteLevels_append_left (by rw [h.length]; omega)]
    · have hn : n = ks.length := by
        have := (List.getElem?_eq_some_iff.mp hj).1
        rw [List.length_append, List.length_singleton] at this
        omega
      obtain rfl : k = j := by simpa [hn] using hj
      rw [if_pos rfl, byteLevels_append_right (hn ▸ h.length) hlen]
  · intro j hj
    obtain rfl : j = k := by simpa using hj.symm
    rw [hread, if_pos rfl, hacc]
    rfl

/-- Byte reads at indices all different. -/
theorem run_readBytes {s : State} (hm : Memory.wf s.scratch) {ks : List (Fin 9)} (hks : ks.Nodup) :
    ∃ ls, BytesRead ks ls s (runSteps (ks.flatMap fun k => readByteProgram (some k)) s) := by
  induction ks using List.reverseRecOn with
  | nil => exact ⟨[], rfl, fun _ _ h => absurd h (Nat.not_lt_zero _), .nil s, hm, by simp, by simp⟩
  | append_singleton ks k ih =>
    obtain ⟨hks, -, hk⟩ := List.nodup_append'.mp hks
    obtain ⟨ls, h⟩ := ih hks
    obtain ⟨ls', h'⟩ := h.concat (k := k) (by simpa using hk)
    refine ⟨ls ++ ls', ?_⟩
    rwa [List.flatMap_append, runSteps_append, List.flatMap_singleton]

theorem byteOrder_getElem? : ∀ k : Fin 9, byteOrder[k.val]? = some k := by decide

/-- GET_TEMP's micro-program took the 72 answers `ls` from `s` and led to `t`. -/
structure SequenceRead (ls : List Level) (s t : State) : Prop where
  length : ls.length = 72
  answers : Machine.answers s ls
  ran : Ran (getTempEvents ls) 72 s t
  wf : Memory.wf t.scratch
  bytes : ∀ k : Fin 9, memRead k t = byteRead (byteLevels ls k)
  acc : t.acc = memRead 8 t

theorem run_getTemp {s : State} (hm : Memory.wf s.scratch) : ∃ ls, SequenceRead ls s (runSteps getTempProgram s) := by
  obtain ⟨hhead, hscratch⟩ := run_getTempHead s
  rw [← hscratch] at hm
  obtain ⟨ls, hlen, hanswers, hran, hwf, hbytes, hacc⟩ := run_readBytes hm (show byteOrder.Nodup by decide)
  have hlen : ls.length = 72 := hlen
  rw [hlen] at hran
  have hall := hhead.trans hran
  rw [Nat.zero_add] at hall
  refine ⟨ls, ?_⟩
  rw [getTempProgram_eq, runSteps_append]
  exact ⟨hlen, answers_append (l1 := []) (fun _ _ h => absurd h (Nat.not_lt_zero _)) hhead.lineIn hanswers,
    hall, hwf, fun k => hbytes k k (byteOrder_getElem? k), hacc 8 rfl⟩

/-- What a stretch of micro-steps leaves alone. -/
theorem Moved.frame {s t : State} (h : Moved s t) :
    t.cmdOp = s.cmdOp ∧ t.cmdArg = s.cmdArg ∧ t.errArg = s.errArg ∧ t.errCmd = s.errCmd ∧ t.errBusy = s.errBusy ∧
      t.host = s.host ∧ t.hostLog = s.hostLog ∧ t.hostDraws = s.hostDraws := by
  rw [h]
  exact ⟨rfl, rfl, rfl, rfl, rfl, rfl, rfl, rfl⟩

@[simp] theorem memRead_complete (k : Fin 9) (f : Option TempUnit) (s : State) :
    memRead k (complete f s) = memRead k s := by
  rw [memRead, memRead, complete_scratch]

@[simp] theorem complete_cmdOp (f : Option TempUnit) (s : State) : (complete f s).cmdOp = s.cmdOp := by
  rw [complete_eq]

@[simp] theorem complete_cmdArg (f : Option TempUnit) (s : State) : (complete f s).cmdArg = s.cmdArg := by
  rw [complete_eq]

@[simp] theorem complete_lineIn (f : Option TempUnit) (s : State) : (complete f s).lineIn = s.lineIn := by
  rw [complete_eq]

/-- What a completion step decodes (R176). -/
theorem complete_decode (u : TempUnit) (s : State) :
    (complete (some u) s).celsius =
        (if signSet (memRead 1 s) then 0 else celsiusField .unset (memRead 0 s) (memRead 1 s)) ∧
      (complete (some u) s).result =
        if signSet (memRead 1 s) then 0 else resultField u (celsiusField .unset (memRead 0 s) (memRead 1 s)) := by
  rw [complete, decodeStep_eq]
  exact ⟨rfl, rfl⟩

/-- GET_TEMP on an idle block: its word is accepted, its sequence read, and the reading decoded. -/
theorem exec_getTemp {v : Byte} {u : TempUnit} (hu : unitOf v = some u) {s : State} (hb : s.busy = false)
    (hm : Memory.wf s.scratch) :
    ∃ ls t, exec (.getTemp v) s = .next (complete (some u) t) ∧ SequenceRead ls (started (.getTemp v) s) t ∧
      t.dir = .input ∧ t.out = .low ∧ t.upc = 675 := by
  obtain ⟨ls, h⟩ := run_getTemp (s := started (.getTemp v) s) hm
  obtain ⟨hdir, hout⟩ := runSteps_line_oneWire (i := .getTemp v) rfl (started (.getTemp v) s)
  have hupc := runSteps_upc (microProgram (.getTemp v)) (started (.getTemp v) s)
  rw [microProgram_length] at hupc
  refine ⟨ls, _, ?_, h, hdir, hout, hupc⟩
  rw [exec_started (by simp [Instr.wellFormed, hu]) hb, finalDecode, hu]
  rfl

/-- Settles O28: the sequence read, and the completion step's registers. -/
theorem getTempRunsTheReadSequence : Obligations.GetTempRunsTheReadSequence := by
  intro v u s hu ⟨hb, hd⟩ hm
  obtain ⟨ls, t, hexec, ⟨hlen, hanswers, hran, hwf, hbytes, hacc⟩, hdir, hout, hupc⟩ := exec_getTemp hu hb hm
  obtain ⟨hop, harg, hargErr, hcmdErr, hbusyErr, hhost, hlog, hdraws⟩ := hran.moved.frame
  obtain ⟨hcelsius, hresult⟩ := complete_decode u t
  refine ⟨_, ls, hexec, hlen, hanswers, ?_, fun k => ?_, ?_, ?_⟩
  · rw [complete_trace, hran.trace]
    rfl
  · rw [memRead_complete, hbytes]
    exact byteRead_toNat (List.length_take_le _ _)
  · rw [complete_acc, memRead_complete, hacc]
  · simp only [memRead_complete, complete_dir, complete_out, complete_busy, complete_done, complete_dlyCnt,
      complete_upc, complete_cmdOp, complete_cmdArg, complete_errArg, complete_errCmd, complete_errBusy,
      complete_scratch, complete_host, complete_hostLog, complete_hostDraws, complete_lineIn]
    exact ⟨hcelsius, hresult, hdir, hout, trivial, trivial, hran.dlyCnt hd, hupc, hop.trans (opField_encode _),
      harg.trans (argField_encode _), hargErr, hcmdErr, hbusyErr, hwf, hhost, hlog, hdraws, hran.lineIn⟩

end Sys2Proof.Machine

namespace Sys2Proof.Machine

/-! ## The totals of GET_TEMP (43_temperature.md R184) -/

/-- What is counted in GET_TEMP's trace, by what is counted in each read slot. -/
theorem countP_getTempEvents {p : Event → Bool} {n : Nat} (h : ∀ l, (readSlotEvents l).countP p = n)
    (ls : List Level) : (getTempEvents ls).countP p = getTempHead.countP p + ls.length * n := by
  simp [getTempEvents, List.countP_flatMap, Function.comp_def, h]

theorem count_getTempEvents {e : Event} {n : Nat} (h : ∀ l, (readSlotEvents l).count e = n) (ls : List Level) :
    (getTempEvents ls).count e = getTempHead.count e + ls.length * n :=
  countP_getTempEvents h ls

theorem length_getTempEvents (ls : List Level) : (getTempEvents ls).length = getTempHead.length + ls.length * 7 := by
  simp [getTempEvents, List.length_flatMap, readSlotEvents_length]

theorem nominalTime_getTempEvents (ls : List Level) :
    nominalTime (getTempEvents ls) = nominalTime getTempHead + ls.length * 60 := by
  rw [getTempEvents, nominalTime_append, nominalTime_flatMap nominalTime_readSlot]

theorem getTempHead_counts :
    getTempHead.length = 171 ∧ getTempHead.countP Event.isWait = 69 ∧ getTempHead.countP Event.isSample = 0 ∧
      getTempHead.count .dirOut = 34 ∧ getTempHead.count (.drive .low) = 34 ∧ getTempHead.count .dirIn = 34 ∧
      nominalTime getTempHead = 4590 ∧ getTempHead.count (.wait 480) = 4 ∧ getTempHead.count (.wait 59) = 32 ∧
      getTempHead.count (.wait 44) = 0 := by
  decide +kernel

/-- The events before sample `m` of GET_TEMP: its head, the read slots before, and the start of the slot. -/
def eventsBeforeSample (ls : List Level) (m : Nat) : List Event :=
  getTempEvents (ls.take m) ++ [.dirOut, .drive .low, .wait 1, .dirIn, .wait 15]

theorem getTempEvents_split {ls : List Level} {m : Nat} (h : m < ls.length) :
    getTempEvents ls =
      eventsBeforeSample ls m ++ .sample ls[m] :: .wait 44 :: (ls.drop (m + 1)).flatMap readSlotEvents := by
  have hslots : ls.flatMap readSlotEvents = (ls.take m).flatMap readSlotEvents ++
      (readSlotEvents ls[m] ++ (ls.drop (m + 1)).flatMap readSlotEvents) := by
    rw [← List.flatMap_cons, ← List.drop_eq_getElem_cons h, ← List.flatMap_append, List.take_append_drop]
  rw [eventsBeforeSample, getTempEvents, hslots, getTempEvents]
  simp [readSlotEvents]

/-- Settles O29: the counts of the head and of 72 read slots, and the trace cut at its sample `m`. -/
theorem getTempTotals : Obligations.GetTempTotals := by
  intro v s t hv ⟨hb, _⟩ hm ht
  obtain ⟨u, hu⟩ := Option.isSome_iff_exists.mp hv
  obtain ⟨ls, r, hexec, ⟨hlen, -, hran, -, hbytes, -⟩, -⟩ := exec_getTemp hu hb hm
  cases hexec.symm.trans ht
  obtain ⟨hops, hwaits, hsamples, houts, hdrives, hins, htime, h480, h59, h44⟩ := getTempHead_counts
  refine ⟨getTempEvents ls, ?_, microProgram_length _, ?_, ?_, ?_, ?_, ?_, ?_, ?_, ?_, ?_, ?_, fun m hlt => ?_⟩
  · rw [complete_trace, hran.trace]
    rfl
  · rw [length_getTempEvents, hops, hlen]
  · rw [countP_getTempEvents readSlotEvents_waits, hwaits, hlen]
  · rw [countP_getTempEvents readSlotEvents_samples, hsamples, hlen]
  · rw [count_getTempEvents (n := 1) (fun _ => rfl), houts, hlen]
  · rw [count_getTempEvents (n := 1) (fun _ => rfl), hdrives, hlen]
  · rw [count_getTempEvents (n := 1) (fun _ => rfl), hins, hlen]
  · rw [nominalTime_getTempEvents, htime, hlen]
  · rw [count_getTempEvents (n := 0) (fun _ => rfl), h480, hlen]
  · rw [count_getTempEvents (n := 0) (fun _ => rfl), h59, hlen]
  · rw [count_getTempEvents (n := 1) (fun _ => rfl), h44, hlen]
  · have hm : m < ls.length := hlt.trans_eq hlen.symm
    have htake : (ls.take m).length = m := List.length_take_of_le hm.le
    refine ⟨eventsBeforeSample ls m, ls[m], _, getTempEvents_split hm, ?_, ?_, fun k hk => ?_⟩
    · rw [eventsBeforeSample, List.countP_append, countP_getTempEvents readSlotEvents_samples, hsamples, htake]
      simp [Event.isSample]
    · rw [eventsBeforeSample, nominalTime_append, nominalTime_getTempEvents, htime, htake, Nat.mul_comm m]
      rfl
    · have hi : m % 8 < 8 := Nat.mod_lt _ (by decide)
      rw [memRead_complete, hbytes, Bool.eq_iff_iff, getLsbD_byteRead _ hi, byteLevels_getElem? _ _ hi, hk,
        Nat.div_add_mod, List.getElem?_eq_getElem hm]
      cases ls[m] <;> simp [levelBit]

end Sys2Proof.Machine

namespace Sys2Proof.Machine

/-! ## Commands and their expansions (30_encoding.md R105, 43_temperature.md R185)

A line of an expansion is an accepted command of its own, with its own command registers and flags; what the lines hand
on is the line's history, the environment and the data. -/

/-- Two states with the same history of the line and the same environment. -/
structure SameLine (s t : State) : Prop where
  events : s.events = t.events
  lineIn : s.lineIn = t.lineIn
  draws : s.draws = t.draws

/-- What a micro-step does to the line's history and the environment is fixed by what its operation shows. -/
theorem runStep_line (s : State) (m : MicroStep) :
    (runStep s m).events =
        (if shownEvent m.op = .sample .low then .sample (oracle s).1 else shownEvent m.op) :: s.events ∧
      ((runStep s m).lineIn, (runStep s m).draws) =
        if shownEvent m.op = .sample .low then ((oracle s).2.lineIn, (oracle s).2.draws) else (s.lineIn, s.draws) := by
  rw [runStep_events, runStep_answers]
  cases m.op <;> simp [shownEvent]

theorem SameLine.runStep {s t : State} (h : SameLine s t) {m m' : MicroStep}
    (hm : shownEvent m.op = shownEvent m'.op) : SameLine (runStep s m) (runStep t m') := by
  obtain ⟨hlevel, hscript, hdraws⟩ := oracle_congr h.events h.lineIn h.draws
  obtain ⟨hevents, henv⟩ := runStep_line s m
  obtain ⟨hevents', henv'⟩ := runStep_line t m'
  rw [hm, hlevel, h.events, ← hevents'] at hevents
  rw [hm, hscript, hdraws, h.lineIn, h.draws, ← henv', Prod.mk.injEq] at henv
  exact ⟨hevents, henv.1, henv.2⟩

/-- Micro-programs that show the same leave the same line, whatever they do with the levels. -/
theorem SameLine.runSteps {s t : State} (h : SameLine s t) {p q : List MicroStep}
    (hpq : List.Forall₂ (fun m m' => shownEvent m.op = shownEvent m'.op) p q) :
    SameLine (runSteps p s) (runSteps q t) := by
  induction hpq generalizing s t with
  | nil => exact h
  | cons hm _ ih => exact ih (h.runStep hm)

/-- Two states alike in all that an accepted command does not write anew when it starts or ends. -/
structure SameData (s t : State) : Prop extends SameLine s t where
  acc : s.acc = t.acc
  scratch : s.scratch = t.scratch
  celsius : s.celsius = t.celsius
  result : s.result = t.result
  dir : s.dir = t.dir
  out : s.out = t.out

theorem SameData.refl (s : State) : SameData s s := ⟨⟨rfl, rfl, rfl⟩, rfl, rfl, rfl, rfl, rfl, rfl⟩

theorem SameData.trans {s t u : State} (h : SameData s t) (k : SameData t u) : SameData s u :=
  ⟨⟨h.events.trans k.events, h.lineIn.trans k.lineIn, h.draws.trans k.draws⟩, h.acc.trans k.acc,
    h.scratch.trans k.scratch, h.celsius.trans k.celsius, h.result.trans k.result, h.dir.trans k.dir,
    h.out.trans k.out⟩

/-- Two states with the same line, alike in the data but for the accumulator. -/
theorem SameLine.sameData {s t : State} (h : SameLine s t) (hscratch : s.scratch = t.scratch)
    (hcelsius : s.celsius = t.celsius) (hresult : s.result = t.result) (hdir : s.dir = t.dir) (hout : s.out = t.out) :
    SameData s { t with acc := s.acc } :=
  ⟨⟨h.events, h.lineIn, h.draws⟩, rfl, hscratch, hcelsius, hresult, hdir, hout⟩

/-- Micro-steps do not decode. -/
theorem Moved.results {s t : State} (h : Moved s t) : t.celsius = s.celsius ∧ t.result = s.result := by
  rw [h]
  exact ⟨rfl, rfl⟩

theorem SameData.runStep {s t : State} (h : SameData s t) (m : MicroStep) : SameData (runStep s m) (runStep t m) := by
  obtain ⟨hlevel, -, -⟩ := oracle_congr h.events h.lineIn h.draws
  have hacc : (Machine.runStep s m).acc = (Machine.runStep t m).acc := by
    rw [runStep_acc, runStep_acc, beforeOp_acc, beforeOp_acc, hlevel, h.acc]
  obtain ⟨hcelsius, hresult⟩ := (runStep_moved s m).results
  obtain ⟨hcelsius', hresult'⟩ := (runStep_moved t m).results
  refine ⟨h.toSameLine.runStep rfl, hacc, ?_, ?_, ?_, ?_, ?_⟩
  · rw [runStep_scratch, runStep_scratch, hacc, h.scratch]
  · rw [hcelsius, hcelsius', h.celsius]
  · rw [hresult, hresult', h.result]
  · rw [runStep_dir_eq, runStep_dir_eq, h.dir]
  · rw [runStep_out_eq, runStep_out_eq, h.out]

theorem SameData.runSteps {s t : State} (h : SameData s t) (p : List MicroStep) :
    SameData (runSteps p s) (runSteps p t) := by
  induction p generalizing s t with
  | nil => exact h
  | cons m p ih => exact ih (h.runStep m)

/-- Accepting a command keeps the data. -/
theorem SameData.started {s t : State} (h : SameData s t) (i : Instr) : SameData (started i s) t :=
  ⟨⟨h.events, h.lineIn, h.draws⟩, h.acc, h.scratch, h.celsius, h.result, h.dir, h.out⟩

/-- The decode of a completion step, where the command has one. -/
def decoded (f : Option TempUnit) (s : State) : State :=
  match f with
  | none => s
  | some u => decodeStep u s

/-- A completion step does nothing to the data but to decode. -/
theorem SameData.complete {s t : State} (h : SameData s t) (f : Option TempUnit) :
    SameData (complete f s) (decoded f t) := by
  cases f with
  | none => exact ⟨⟨h.events, h.lineIn, h.draws⟩, h.acc, h.scratch, h.celsius, h.result, h.dir, h.out⟩
  | some u =>
    have hread (k : Fin 9) : memRead k s = memRead k t := by rw [memRead, memRead, h.scratch]
    rw [Machine.complete, decoded, decodeStep_eq, decodeStep_eq, hread, hread]
    exact ⟨⟨h.events, h.lineIn, h.draws⟩, h.acc, h.scratch, rfl, rfl, h.dir, h.out⟩

/-- What a line of an expansion does to the data. -/
def lineData (s : State) (x : HostLine) : State :=
  match x with
  | .cmd i => decoded (finalDecode i) (runSteps (microProgram i) s)
  | .saveByte k => memWrite k s.acc s

/-- A line whose command, if it is one, the block accepts. -/
def lineWellFormed : HostLine → Bool
  | .cmd i => i.wellFormed
  | .saveByte _ => true

theorem extractLsb'_setWidth (b : Byte) : (b.setWidth 32).extractLsb' 0 8 = b := by
  refine BitVec.eq_of_toNat_eq ?_
  have := b.isLt
  rw [lowByte_toNat, toNat_zeroExtend (by decide)]
  omega

/-- `RD DATA; SCR k, <that value>` on an idle block stores the accumulator (30_encoding.md R105). -/
theorem runLine_saveByte (k : Fin 9) {s : State} (hb : s.busy = false) :
    runLine (.saveByte k) s = .next (memWrite k s.acc (hostReadStep 0x02 s)) := by
  rw [runLine, hostWrite_scratch k _ (s := hostReadStep 0x02 s) hb, hostRead_idle _ hb]
  exact congrArg (fun v => Host.Outcome.next (memWrite k v (hostReadStep 0x02 s))) (extractLsb'_setWidth s.acc)

/-- A line on an idle block completes, and does to the data what `lineData` says. -/
theorem runLine_data {x : HostLine} (hx : lineWellFormed x = true) {s s0 : State} (h : Idle s)
    (hs : SameData s s0) : ∃ t, runLine x s = .next t ∧ Idle t ∧ SameData t (lineData s0 x) := by
  obtain ⟨hb, hd⟩ := h
  cases x with
  | cmd i =>
    refine ⟨_, exec_started hx hb, ⟨complete_busy _ _, ?_⟩, ((hs.started i).runSteps _).complete _⟩
    rw [complete_dlyCnt]
    exact runSteps_dlyCnt _ hd
  | saveByte k =>
    refine ⟨_, runLine_saveByte k hb, ⟨hb, hd⟩, ⟨hs.events, hs.lineIn, hs.draws⟩, hs.acc, ?_, hs.celsius, hs.result,
      hs.dir, hs.out⟩
    rw [lineData, memWrite, memWrite, ← hs.acc, ← hs.scratch]
    rfl

/-- Lines one after another. -/
theorem runLines_data {xs : List HostLine} (hxs : ∀ x ∈ xs, lineWellFormed x = true) {s s0 : State} (h : Idle s)
    (hs : SameData s s0) : ∃ t, runLines xs s = .next t ∧ SameData t (xs.foldl lineData s0) := by
  induction xs generalizing s s0 with
  | nil => exact ⟨s, rfl, hs⟩
  | cons x xs ih =>
    obtain ⟨hx, hxs⟩ := List.forall_mem_cons.mp hxs
    obtain ⟨t, ht, hidle, hdata⟩ := runLine_data hx h hs
    obtain ⟨t', ht', hdata'⟩ := ih hxs hidle hdata
    exact ⟨t', by rw [runLines, ht]; exact ht', hdata'⟩

/-! ### What an expansion does to the data -/

/-- Commands that decode nothing run their micro-programs one after another. -/
theorem foldl_lineData_cmds {is : List Instr} (h : ∀ i ∈ is, finalDecode i = none) (s : State) :
    (is.map HostLine.cmd).foldl lineData s = runSteps (is.flatMap microProgram) s := by
  induction is generalizing s with
  | nil => rfl
  | cons i is ih =>
    obtain ⟨hi, his⟩ := List.forall_mem_cons.mp h
    rw [List.map_cons, List.foldl_cons, ih his, List.flatMap_cons, runSteps_append, lineData, hi]
    rfl

/-- A byte read but for its last micro-step. -/
def readByteInit : List MicroStep := (readByteProgram none).dropLast

/-- A byte read that is stored differs in its last micro-step alone. -/
theorem readByteProgram_eq (k : Option (Fin 9)) :
    readByteProgram k = readByteInit ++ [{ op := .delay Config.tRRest, store := k }] := rfl

theorem runStep_delay_store (n : Nat) (k : Fin 9) (s : State) :
    runStep s { op := .delay n, store := some k } =
      memWrite k (runStep s { op := .delay n }).acc (runStep s { op := .delay n }) := rfl

/-- A byte read and then saved is a byte read with its store (43_temperature.md R172). -/
theorem runSteps_readByte_some (k : Fin 9) (s : State) :
    runSteps (readByteProgram (some k)) s =
      memWrite k (runSteps (readByteProgram none) s).acc (runSteps (readByteProgram none) s) := by
  rw [readByteProgram_eq (some k), readByteProgram_eq none, runSteps_concat, runSteps_concat]
  exact runStep_delay_store _ k _

theorem foldl_lineData_readBytes (ks : List (Fin 9)) (s : State) :
    (ks.flatMap fun k => [HostLine.cmd .owReadByte, .saveByte k]).foldl lineData s =
      runSteps (ks.flatMap fun k => readByteProgram (some k)) s := by
  induction ks generalizing s with
  | nil => rfl
  | cons k ks ih =>
    rw [List.flatMap_cons, List.foldl_append, ih, List.flatMap_cons, runSteps_append, runSteps_readByte_some]
    rfl

/-- The lines of GET_TEMP's expansion before the bytes are read. -/
def getTempHeadCommands : List Instr :=
  [.owReset, .owWriteByte 0xCC, .owWriteByte 0x44, .delay 750, .owReset, .owWriteByte 0xCC, .owWriteByte 0xBE]

theorem getTempHeadCommands_program : getTempHeadCommands.flatMap microProgram = getTempHeadProgram := by
  simp only [getTempHeadCommands, List.flatMap_cons, List.flatMap_nil, List.append_nil, getTempHeadProgram,
    List.append_assoc]
  rfl

theorem expansion_getTemp (v : Byte) :
    expansion (.getTemp v) = getTempHeadCommands.map HostLine.cmd ++
      (byteOrder.flatMap fun k => [HostLine.cmd .owReadByte, .saveByte k]) ++ [HostLine.cmd (.decode v)] := rfl

/-- An expansion into commands that decode nothing does to the data what its command does, if their micro-programs
make up the command's. -/
theorem foldl_lineData_of_cmds {i : Instr} (is : List Instr) (hexp : expansion i = is.map .cmd)
    (hdecode : ∀ j ∈ is, finalDecode j = none) (hprog : is.flatMap microProgram = microProgram i)
    (hi : finalDecode i = none) (s : State) : (expansion i).foldl lineData s = lineData s (.cmd i) := by
  rw [hexp, foldl_lineData_cmds hdecode, hprog, lineData, hi]
  rfl

theorem foldl_lineData_getTemp (v : Byte) (s : State) :
    (expansion (.getTemp v)).foldl lineData s = lineData s (.cmd (.getTemp v)) := by
  have hhead : ∀ i ∈ getTempHeadCommands, finalDecode i = none := by decide
  have hlast (t : State) : [HostLine.cmd (.decode v)].foldl lineData t = decoded (unitOf v) t := rfl
  rw [expansion_getTemp, List.foldl_append, List.foldl_append, hlast, foldl_lineData_cmds hhead,
    foldl_lineData_readBytes, getTempHeadCommands_program, ← runSteps_append, ← getTempProgram_eq]
  rfl

/-- An expansion does to the data what its command does, but for OW_READ_BYTE's. -/
theorem foldl_lineData_expansion {i : Instr} (h : i ≠ .owReadByte) (s : State) :
    (expansion i).foldl lineData s = lineData s (.cmd i) := by
  cases i with
  | owReadByte => exact absurd rfl h
  | getTemp v => exact foldl_lineData_getTemp v s
  | setInput | setOutput | writeLevel | readLevel | delay | decode => rfl
  | owReset =>
    exact foldl_lineData_of_cmds [.setOutput, .writeLevel .low, .delay 480, .setInput, .delay 480] rfl (by decide) rfl
      rfl s
  | owWriteBit b =>
    cases b with
    | false =>
      exact foldl_lineData_of_cmds [.setOutput, .writeLevel .low, .delay 59, .setInput, .delay 1] rfl (by decide) rfl
        rfl s
    | true =>
      exact foldl_lineData_of_cmds [.setOutput, .writeLevel .low, .delay 1, .setInput, .delay 59] rfl (by decide) rfl
        rfl s
  | owReadBit =>
    exact foldl_lineData_of_cmds
      [.setOutput, .writeLevel .low, .delay 1, .setInput, .delay 15, .readLevel, .delay 44] rfl (by decide) rfl rfl s
  | owWriteByte v =>
    exact foldl_lineData_of_cmds ((List.range 8).map fun n => .owWriteBit (v.getLsbD n)) rfl (by simp [finalDecode]) rfl
      rfl s

/-! ### OW_READ_BYTE and eight OW_READ_BITs -/

/-- Eight OW_READ_BITs, the last one on its own. -/
def readBitsProgram : List MicroStep := (List.replicate 7 owReadBitProgram).flatten ++ owReadBitProgram

/-- They show what OW_READ_BYTE shows. -/
theorem readBits_show_readByte :
    List.Forall₂ (fun m m' => shownEvent m.op = shownEvent m'.op) readBitsProgram (readByteProgram none) := by
  decide

theorem readBits_sameLine (s : State) :
    SameLine (runSteps readBitsProgram s) (runSteps (readByteProgram none) s) :=
  (SameData.refl s).toSameLine.runSteps readBits_show_readByte

/-- The byte read, shifted down to its last sample. -/
theorem byteRead_shift {ls : List Level} (h : ls.length = 7) (l : Level) :
    byteRead (ls ++ [l]) >>> 7 = levelByte l := by
  have hbit : (byteRead (ls ++ [l])).getLsbD 7 = levelBit l := by
    rw [Bool.eq_iff_iff, getLsbD_byteRead _ (by decide), List.getElem?_append_right h.le, h]
    cases l <;> simp [levelBit]
  refine BitVec.eq_of_getLsbD_eq fun i hi => ?_
  rw [BitVec.getLsbD_ushiftRight, levelByte, BitVec.getLsbD_setWidth, BitVec.getLsbD_ofBool]
  cases i with
  | zero => simpa using hbit
  | succ i => rw [BitVec.getLsbD_of_ge _ _ (by omega)]; simp

theorem SameLine.trace {s t : State} (h : SameLine s t) : s.trace = t.trace := by
  rw [State.trace, State.trace, h.events]

/-- Eight OW_READ_BITs leave the last sample of OW_READ_BYTE alone in the accumulator. -/
theorem readBits_acc (s : State) :
    (runSteps readBitsProgram s).acc = (runSteps (readByteProgram none) s).acc >>> 7 := by
  have htrace := (readBits_sameLine s).trace
  rw [readBitsProgram, runSteps_append] at htrace ⊢
  obtain ⟨l, t, ht, -, hran, -, -, hacc, -⟩ :=
    run_readSlot .whole false none (runSteps (List.replicate 7 owReadBitProgram).flatten s)
  obtain ⟨ls, u, hlen, hu, -, hranByte, -, -, haccByte, -⟩ := run_readByte none s
  have ht : runSteps owReadBitProgram _ = t := ht
  rw [ht, hu, hran.trace, hranByte.trace] at htrace
  rw [ht, hu, hacc, haccByte]
  obtain rfl | ⟨ls, l', rfl⟩ := List.eq_nil_or_concat' ls
  · exact absurd hlen (by decide)
  rw [List.flatMap_append, ← List.append_assoc, List.flatMap_singleton] at htrace
  have hlast : readSlotEvents l = readSlotEvents l' := List.append_inj_right' htrace rfl
  obtain rfl : l = l' := by simpa [readSlotEvents] using hlast
  exact (byteRead_shift (by simpa using hlen) l).symm

/-- A micro-program without a store leaves the buffer. -/
theorem runSteps_scratch_of_noStore {p : List MicroStep} (h : ∀ m ∈ p, m.store = none) (s : State) :
    (runSteps p s).scratch = s.scratch := by
  induction p generalizing s with
  | nil => rfl
  | cons m p ih =>
    obtain ⟨hm, hp⟩ := List.forall_mem_cons.mp h
    rw [runSteps_cons, ih hp, runStep_scratch, hm]

/-- Eight OW_READ_BITs do to the data what OW_READ_BYTE does, but for the accumulator. -/
theorem readBits_data (s : State) :
    SameData (runSteps readBitsProgram s)
      { runSteps (readByteProgram none) s with acc := (runSteps readBitsProgram s).acc } := by
  obtain ⟨hcelsius, hresult⟩ := (runSteps_moved readBitsProgram s).results
  obtain ⟨hcelsius', hresult'⟩ := (runSteps_moved (readByteProgram none) s).results
  have hstore : ∀ m ∈ readBitsProgram, m.store = none := by decide
  have hscratch : (runSteps readBitsProgram s).scratch = (runSteps (readByteProgram none) s).scratch := by
    rw [runSteps_scratch_of_noStore hstore, runSteps_scratch_of_noStore store_readByte]
  have hdir : (runSteps readBitsProgram s).dir = (runSteps (readByteProgram none) s).dir := by
    rw [runSteps_dir, runSteps_dir, lastDir_readByte, show lastDir readBitsProgram = some .input from rfl]
  have hout : (runSteps readBitsProgram s).out = (runSteps (readByteProgram none) s).out := by
    rw [runSteps_out, runSteps_out, lastLevel_readByte, show lastLevel readBitsProgram = some .low from rfl]
  exact (readBits_sameLine s).sameData hscratch (hcelsius.trans hcelsius'.symm) (hresult.trans hresult'.symm) hdir hout

theorem foldl_lineData_owReadByte (s : State) :
    (expansion .owReadByte).foldl lineData s = runSteps readBitsProgram s :=
  foldl_lineData_cmds (is := List.replicate 8 .owReadBit) (by decide) s

/-- An expansion does to the data what its command does, but that OW_READ_BYTE's leaves bit 7 of the byte alone in the
accumulator (R105). -/
theorem expansion_data (i : Instr) (s : State) :
    ∃ a, SameData ((expansion i).foldl lineData s) { lineData s (.cmd i) with acc := a } ∧
      (i ≠ .owReadByte → a = (lineData s (.cmd i)).acc) ∧ (i = .owReadByte → a = (lineData s (.cmd i)).acc >>> 7) := by
  by_cases hi : i = .owReadByte
  · subst hi
    rw [foldl_lineData_owReadByte]
    exact ⟨_, readBits_data s, fun hne => absurd rfl hne, fun _ => readBits_acc s⟩
  · rw [foldl_lineData_expansion hi]
    exact ⟨_, .refl _, fun _ => rfl, fun heq => absurd heq hi⟩

/-- The lines of an accepted command's expansion are accepted. -/
theorem expansion_wellFormed {i : Instr} (h : i.wellFormed = true) : ∀ x ∈ expansion i, lineWellFormed x = true := by
  cases i with
  | owWriteBit b => cases b <;> decide
  | owWriteByte v => simp [expansion, lineWellFormed, Instr.wellFormed]
  | getTemp v =>
    rw [expansion_getTemp]
    simp only [List.forall_mem_append, List.forall_mem_singleton]
    exact ⟨⟨by decide, by decide⟩, h⟩
  | owReset | owReadBit | owReadByte => decide
  | setInput | setOutput | writeLevel | readLevel | delay | decode =>
    exact List.forall_mem_singleton.mpr h

/-- Settles O56: the command and its expansion do the same to the data, but for OW_READ_BYTE's accumulator. -/
theorem commandsEqualTheirExpansions : Obligations.CommandsEqualTheirExpansions := by
  intro i s hw h _
  obtain ⟨t, ht, -, hdata⟩ := runLine_data (x := .cmd i) hw h (.refl s)
  obtain ⟨t', ht', hdata'⟩ := runLines_data (expansion_wellFormed hw) h (.refl s)
  obtain ⟨a, hexpansion, hne, heq⟩ := expansion_data i s
  have hsame := hdata'.trans hexpansion
  refine ⟨t, t', ht, ht', hsame.trace.trans hdata.trace.symm, hsame.scratch.trans hdata.scratch.symm,
    hsame.celsius.trans hdata.celsius.symm, hsame.result.trans hdata.result.symm, hsame.dir.trans hdata.dir.symm,
    hsame.out.trans hdata.out.symm, fun hi => ?_, fun hi => ?_⟩
  · rw [hsame.acc, hdata.acc, ← hne hi]
  · rw [hsame.acc, hdata.acc, ← heq hi]

end Sys2Proof.Machine

namespace Sys2Proof.Machine

/-! ## No step goes wrong (60_exceptions.md R219) -/

/-- Under the invariant a busy block has a command it accepts and stands inside its micro-program or at its end. -/
theorem Invariant.seqStep_progress {s : State} (h : Invariant s) (hb : s.busy = true) : ∃ t, seqStep s = .next t := by
  obtain ⟨i, hi, hle⟩ := h.command hb
  rw [seqStep_of_command hi]
  rcases hle.lt_or_eq with hlt | hend
  · rw [commandStep, List.getElem?_eq_getElem hlt]
    exact ⟨_, rfl⟩
  · exact ⟨_, commandStep_complete hend⟩

theorem Invariant.clockStep_progress {s : State} (h : Invariant s) : ∃ t, clockStep s = .next t := by
  rcases Bool.eq_false_or_eq_true s.busy with hb | hb
  · rw [clockStep_busy hb]
    exact h.seqStep_progress hb
  · exact ⟨s, clockStep_idle hb⟩

/-- A command line always answers, whatever the state (60_exceptions.md R200). -/
theorem exec_progress (i : Instr) (s : State) : ∃ t, exec i s = .next t := by
  rcases exec_cases i s with ⟨-, e⟩ | ⟨-, -, e⟩ | ⟨-, -, e⟩ <;> exact ⟨_, e⟩

theorem Invariant.hostStep_progress {s : State} (h : Invariant s) (a : HostAct) : ∃ t, hostStep a s = .next t := by
  cases a with
  | command w =>
    cases hs : spelled w with
    | some i =>
      rw [hostStep_command_spelled hs]
      exact exec_progress i s
    | none => exact ⟨_, hostStep_command_unspelled hs s⟩
  | tick => exact h.clockStep_progress
  | write | read | rst => exact ⟨_, rfl⟩

/-- Settles O5: the sequencer alone can stop, and the invariant gives it a command and a place in it. -/
theorem noStepFaultsUnderTheInvariant : Obligations.NoStepFaultsUnderTheInvariant := by
  intro s h
  cases hh : s.host with
  | nil =>
    rw [step_nil hh]
    exact h.clockStep_progress
  | cons a rest =>
    rw [step_cons hh]
    exact (h.after_withOutside { s with host := rest }).hostStep_progress a

/-! ## Busy writes and busy reads (60_exceptions.md R203, R206) -/

/-- The sequencer's step leaves the error flags and the host's side. -/
theorem seqStep_keeps_outside {s t : State} (h : seqStep s = .next t) : withOutside t s = t :=
  Host.Outcome.next.inj ((seqStep_withOutside h s).symm.trans h)

/-- A flag raised before a sequencer step is a flag raised after it. -/
theorem seqStep_errBusy {s t : State} (h : seqStep s = .next t) :
    seqStep { s with errBusy := true } = .next { t with errBusy := true } := by
  calc seqStep { s with errBusy := true } = .next (withOutside t { s with errBusy := true }) :=
        seqStep_withOutside h { s with errBusy := true }
    _ = .next { withOutside t s with errBusy := true } := rfl
    _ = .next { t with errBusy := true } := by rw [seqStep_keeps_outside h]

/-- Settles O38: the sequencer's step does not look at the flag the dropped write sets. -/
theorem busyWriteIsDroppedAndFlagged : Obligations.BusyWriteIsDroppedAndFlagged := by
  intro w s hb
  refine ⟨fun idx hi => ?_, fun i => exec_busy hb, ?_⟩
  · rw [hostWrite_busy hi w hb]
    exact ⟨rfl, fun t ht => seqStep_errBusy ht⟩
  · rw [hostWrite_status, clearFlags_errBusy]
    cases w.getLsbD 4 <;> simp

theorem isResultReg_hostReg {idx : BitVec 5}
    (h : (2 ≤ idx.toNat ∧ idx.toNat ≤ 4) ∨ (16 ≤ idx.toNat ∧ idx.toNat ≤ 24)) :
    isResultReg (hostReg idx) = true := by
  revert idx
  decide

/-- A busy read of a result register is the free value of the count of earlier ones (20_memory.md R62). -/
theorem hostRead_busy {idx : BitVec 5} (h : isResultReg (hostReg idx) = true) {s : State} (hb : s.busy = true) :
    hostRead idx s = Config.busyRead s.hostDraws := by
  simp [hostRead, hb, h]

/-- Settles O46: both reads are the free value of the same count. -/
theorem busyReadsRevealNothing : Obligations.BusyReadsRevealNothing := by
  intro idx s t hs ht hcount hidx
  have hreg := isResultReg_hostReg hidx
  rw [hostRead_busy hreg hs, hostRead_busy hreg ht, hcount]

/-! ## Refusals of an idle block (60_exceptions.md R201, R202, R208) -/

/-- An idle block's CMD write, by the decoder's answer: the word is accepted. -/
theorem hostWrite_cmd_ok {w : Word} {i : Instr} (h : decodeWord w = .ok i) {s : State} (hb : s.busy = false) :
    hostWrite 0x00 w s = accept w { s with done := false } := by
  rw [hostWrite_cmd_idle w hb, commandWrite, h]

/-- An idle block's CMD write, by the decoder's answer: the argument is refused. -/
theorem hostWrite_cmd_badArg {w : Word} {i : Instr} (h : decodeWord w = .badArg i) {s : State} (hb : s.busy = false) :
    hostWrite 0x00 w s = raise .invalidArgument { s with done := false } := by
  rw [hostWrite_cmd_idle w hb, commandWrite, h]

/-- An idle block's CMD write, by the decoder's answer: the word is refused. -/
theorem hostWrite_cmd_illegal {w : Word} {why : IllegalWord} (h : decodeWord w = .illegal why) {s : State}
    (hb : s.busy = false) : hostWrite 0x00 w s = raise .illegalCommand { s with done := false } := by
  rw [hostWrite_cmd_idle w hb, commandWrite, h]

/-- Settles O39: BUSY is tested before the decoder, and the decoder tests the word before the argument. -/
theorem refusalPriority : Obligations.RefusalPriority := by
  intro w s
  refine ⟨fun hb => hostWrite_busy (by decide) w hb, fun hb ⟨_, h⟩ => hostWrite_cmd_illegal h hb,
    fun hb ⟨_, h⟩ => hostWrite_cmd_badArg h hb, fun hb ⟨_, h⟩ => ?_, by decide⟩
  rw [hostWrite_cmd_ok h hb]
  exact ⟨rfl, rfl, rfl, rfl⟩

/-- A character that is none of the four is no unit (30_encoding.md R101). -/
theorem unitOf_eq_none {v : Byte} (h : v ∉ [0x43, 0x63, 0x46, 0x66]) : unitOf v = none := by
  have hC : v ∉ Config.unitC := mt (List.mem_append_left Config.unitF) h
  have hF : v ∉ Config.unitF := mt (List.mem_append_right Config.unitC) h
  rw [unitOf, if_neg hC, if_neg hF]

/-- A command with a bad argument is refused alike by its line and by a bare write of its word (log 6). -/
theorem badArg_refused {i : Instr} (hw : i.wellFormed = false) {s : State} (hb : s.busy = false) :
    exec i s = .next { s with done := false, errArg := true } ∧
    hostWrite 0x00 (encode i) s = { s with done := false, errArg := true } := by
  have hd : decodeWord (encode i) = .badArg i := by simp [decodeWord_encode, hw]
  exact ⟨exec_badArg hw hb, hostWrite_cmd_badArg hd hb⟩

/-- Settles O36: a character that is no unit makes both commands' arguments bad. -/
theorem badUnitRaisesInvalidArgument : Obligations.BadUnitRaisesInvalidArgument := by
  refine ⟨fun v s hv hb => ?_, by decide⟩
  have hunit : (unitOf v).isSome = false := by rw [unitOf_eq_none hv]; rfl
  obtain ⟨hGetLine, hGetWrite⟩ := badArg_refused (i := .getTemp v) hunit hb
  obtain ⟨hDecodeLine, hDecodeWrite⟩ := badArg_refused (i := .decode v) hunit hb
  exact ⟨hGetLine, hDecodeLine, hGetWrite, hDecodeWrite⟩

/-- The step that takes a command line just placed is the line's, on the state as it was. -/
theorem step_withFetchWord (s : State) (w : Word) : step (s.withFetchWord 32 w.toNat) = hostStep (.command w) s := by
  rw [withFetchWord_rest (s := { s with host := .command w :: s.host }) rfl]
  exact step_cons rfl

/-- Settles O37: an illegal word spells nothing, so its line is the write of the word. -/
theorem illegalWordRaisesIllegalCommand : Obligations.IllegalWordRaisesIllegalCommand := by
  refine ⟨fun w why s hd hb => ?_, by decide, by decide⟩
  have hwrite : hostWrite 0x00 w s = { s with done := false, errCmd := true } := hostWrite_cmd_illegal hd hb
  have hnone : spelled w = none := by simp [spelled, hd]
  rw [step_withFetchWord, hostStep_command_unspelled hnone, hwrite]
  exact ⟨rfl, rfl⟩

end Sys2Proof.Machine

namespace Sys2Proof.Machine

/-! ## What a command appends to the trace, counted (70_reset_and_hazards.md R237) -/

/-- The row of R237's table that a list of events makes. -/
def eventsRow (es : List Event) : TimingRow :=
  ⟨es.length, es.countP Event.isWait, es.countP Event.isSample, nominalTime es⟩

theorem countP_withoutLevels {p : Event → Bool} (h : ∀ l, p (.sample .low) = p (.sample l)) (es : List Event) :
    (withoutLevels es).countP p = es.countP p := by
  rw [withoutLevels, List.countP_map]
  refine List.countP_congr fun e _ => ?_
  cases e with
  | sample l => exact (h l).congr_left
  | dirIn | dirOut | drive | wait => rfl

theorem nominalTime_withoutLevels (es : List Event) : nominalTime (withoutLevels es) = nominalTime es := by
  rw [nominalTime, withoutLevels, List.map_map, nominalTime]
  refine congrArg List.sum (List.map_congr_left fun e _ => ?_)
  cases e <;> rfl

/-- The levels of the samples count in no column of the table. -/
theorem eventsRow_withoutLevels (es : List Event) : eventsRow (withoutLevels es) = eventsRow es := by
  rw [eventsRow, countP_withoutLevels (fun _ => rfl), countP_withoutLevels (fun _ => rfl), nominalTime_withoutLevels,
    withoutLevels, List.length_map, eventsRow]

/-- A write slot shows its events: it takes no sample. -/
theorem writeSlot_shows (b : Bool) : (writeSlot b).map (fun m => shownEvent m.op) = writeSlotEvents b := by
  cases b <;> rfl

theorem writeByteProgram_shows (v : Byte) :
    (writeByteProgram v).map (fun m => shownEvent m.op) = writeByteEvents v := by
  rw [writeByteProgram, List.map_flatMap]
  simp only [writeSlot_shows]
  rfl

theorem eventsRow_writeByteEvents (v : Byte) : eventsRow (writeByteEvents v) = ⟨40, 16, 0, 480⟩ := by
  have hsamples (b : Bool) : (writeSlotEvents b).countP Event.isSample = 0 := by cases b <;> rfl
  rw [eventsRow, writeByteEvents, nominalTime_flatMap fun _ => nominalTime_writeSlot _]
  simp [List.length_flatMap, List.countP_flatMap, Function.comp_def, writeSlotEvents_length, writeSlotEvents_waits,
    hsamples]

/-- GET_TEMP shows its trace with every sample Low. -/
theorem getTempProgram_shows :
    getTempProgram.map (fun m => shownEvent m.op) = getTempEvents (List.replicate 72 .low) := by
  decide +kernel

theorem eventsRow_getTempEvents {ls : List Level} (h : ls.length = 72) :
    eventsRow (getTempEvents ls) = ⟨675, 285, 72, 8910⟩ := by
  obtain ⟨hops, hwaits, hsamples, -, -, -, htime, -⟩ := getTempHead_counts
  rw [eventsRow, length_getTempEvents, countP_getTempEvents readSlotEvents_waits,
    countP_getTempEvents readSlotEvents_samples, nominalTime_getTempEvents, hops, hwaits, hsamples, htime, h]

/-- Every micro-program shows its command's row of the table. -/
theorem eventsRow_microProgram (i : Instr) :
    eventsRow ((microProgram i).map fun m => shownEvent m.op) = timingRow i := by
  cases i with
  | owWriteBit b => cases b <;> rfl
  | owWriteByte v => exact (congrArg eventsRow (writeByteProgram_shows v)).trans (eventsRow_writeByteEvents v)
  | getTemp v => exact (congrArg eventsRow getTempProgram_shows).trans (eventsRow_getTempEvents List.length_replicate)
  | setInput | setOutput | writeLevel | readLevel | delay | owReset | owReadBit | owReadByte | decode => rfl

/-- At a clock of whole megahertz the delay cycles of a trace are its nominal time's. -/
theorem sum_cycles_megahertz (k : Nat) (es : List Event) :
    (es.map fun e => cyclesAt (1000000 * k) (Event.waits e)).sum = k * nominalTime es := by
  simp only [cyclesAt_megahertz, List.sum_map_mul_right, nominalTime, Nat.mul_comm k]

/-! ## Real time (40_line_and_delay.md R129, R131, 20_memory.md R75) -/

theorem TimedRun.tail {t : TimedEvent} {ts : List TimedEvent} (h : TimedRun (t :: ts)) : TimedRun ts :=
  ⟨fun u hu => h.1 u (List.mem_cons_of_mem t hu), h.2.of_cons⟩

theorem TimedRun.lawful_waits {ts : List TimedEvent} (h : TimedRun ts) {t : TimedEvent} (ht : t ∈ ts) :
    t.start + (Event.waits t.event : ℝ) ≤ t.stop := TimedEvent.lawful_waits (h.1 t ht)

/-- A timed run lasts at least its nominal time: each event's wait is over before the next event starts. -/
theorem TimedRun.nominalTime_le {ts : List TimedEvent} (h : TimedRun ts) {first last : TimedEvent}
    (hfirst : first ∈ ts.head?) (hlast : last ∈ ts.getLast?) :
    (nominalTime (ts.map TimedEvent.event) : ℝ) ≤ last.stop - first.start := by
  induction ts generalizing first with
  | nil => cases hfirst
  | cons t ts ih =>
    cases hfirst
    have hwait := h.lawful_waits List.mem_cons_self
    have htime : nominalTime ((t :: ts).map TimedEvent.event) =
        Event.waits t.event + nominalTime (ts.map TimedEvent.event) := rfl
    rw [htime, Nat.cast_add]
    cases ts with
    | nil =>
      cases hlast
      simpa [nominalTime] using le_sub_iff_add_le'.mpr hwait
    | cons u ts =>
      have hnext : t.stop ≤ u.start := List.rel_of_pairwise_cons h.2 List.mem_cons_self
      have hrest := ih h.tail rfl hlast
      linarith

/-- A wait of a timed run keeps the event before it and the event after it apart. -/
theorem TimedRun.wait_separates {pre post : List TimedEvent} {before wait after : TimedEvent} {n : Nat}
    (h : TimedRun (pre ++ before :: wait :: after :: post)) (hn : wait.event = .wait n) :
    before.stop + n ≤ after.start := by
  have hwait := h.lawful_waits (t := wait) (by simp)
  rw [hn] at hwait
  obtain ⟨-, haround, -⟩ := List.pairwise_append.mp h.2
  obtain ⟨hbefore, hafter⟩ := List.pairwise_cons.mp haround
  have hstart : before.stop ≤ wait.start := hbefore wait List.mem_cons_self
  have hstop : wait.stop ≤ after.start := List.rel_of_pairwise_cons hafter List.mem_cons_self
  calc before.stop + n ≤ wait.start + n := by gcongr
    _ ≤ wait.stop := hwait
    _ ≤ after.start := hstop

/-- Settles O57: the events a command appends make the row of its micro-program, and a timed run of them lasts at
least their nominal time. -/
theorem realTimeIsAtLeastNominal : Obligations.RealTimeIsAtLeastNominal := by
  intro i s hw hb
  obtain ⟨t, ht⟩ := exec_progress i s
  obtain ⟨es, htrace, hshows⟩ := exec_shows ht
  rw [if_pos ⟨hb, hw⟩] at hshows
  have hrow : eventsRow es = timingRow i := by
    rw [← eventsRow_withoutLevels, hshows, eventsRow_microProgram]
  rw [← hrow]
  refine ⟨t, es, ht, htrace, rfl, rfl, rfl, rfl, sum_cycles_megahertz 48 es, ?_⟩
  rintro ts rfl h
  refine ⟨fun first hfirst last hlast => h.nominalTime_le hfirst hlast, ?_⟩
  rintro pre post before wait after n rfl hn
  exact h.wait_separates hn

/-! ## The reset edge (70_reset_and_hazards.md R230, R232) -/

/-- Settles O2: the step is the host's action, and its meaning rebuilds the block from the reset state. -/
theorem resetEdgeRestoresEveryField : Obligations.ResetEdgeRestoresEveryField :=
  fun _ _ h => step_cons h

end Sys2Proof.Machine
